-- ==== Sys2Proof/Word.lean ====
section
/-! DEFINITION. The engine's basic data: bits, bytes and station ids (00_scope.md R2, R7). -/

namespace Sys2Proof

/-- A bit is 0 or 1; "the document's true/false are 1/0" (R7). -/
abbrev Bit := Bool

/-- An 8-bit unsigned value, bit 7 the most significant (R7). -/
abbrev Byte := BitVec 8

/-- The two stations, ids 0 and 1 (R2). -/
inductive Station where
  | st0
  | st1
deriving DecidableEq, Repr

end Sys2Proof
end

