-- ==== Sys2Proof/Syntax.lean ====
section
/-! DEFINITION. The 16 commands of the opcode map (30_encoding.md R58), one constructor each, with the operands of
R57 in the order of R62. A 32-bit operand is kept as the 32 bits of its field; its value is their two's complement. -/

namespace Sys2Proof

inductive Instr where
  /-- 0x01 RESET (R125). -/
  | reset
  /-- 0x02 RD_STATUS (R126). -/
  | rdStatus
  /-- 0x10 MED_REGISTER s (R80). -/
  | medRegister (s : Station)
  /-- 0x11 MED_SEND s, bit (R82). -/
  | medSend (s : Station) (b : Bit)
  /-- 0x20 PHY_SEND s, data (R115). -/
  | phySend (s : Station) (data : List Byte)
  /-- 0x21 PHY_RECEIVE s, bit (R116). -/
  | phyReceive (s : Station) (b : Bit)
  /-- 0x30 DL_BIND s (R122). -/
  | dlBind (s : Station)
  /-- 0x31 DL_SEND s, data (R94). -/
  | dlSend (s : Station) (data : List Byte)
  /-- 0x32 DL_RECEIVE s, byte (R100). -/
  | dlReceive (s : Station) (x : Byte)
  /-- 0x40 BV_NEW (R70). -/
  | bvNew
  /-- 0x41 BV_FROM_BYTES data, begin, end (R71). -/
  | bvFromBytes (data : List Byte) (first last : BitVec 32)
  /-- 0x42 BV_SET index, bit (R72). -/
  | bvSet (index : BitVec 32) (b : Bit)
  /-- 0x43 BV_GET index (R73). -/
  | bvGet (index : BitVec 32)
  /-- 0x44 BV_LEN (R74). -/
  | bvLen
  /-- 0x45 BV_TO_BYTES (R75). -/
  | bvToBytes
  /-- 0x50 NET_SEND s (R123). -/
  | netSend (s : Station)
deriving DecidableEq, Repr

end Sys2Proof
end

