-- ==== Sys2Proof/Machine/Operands.lean ====
section
/-! DEFINITION. How operands are taken apart: the bits of a byte in line order (30_encoding.md R50, 20_memory.md R34),
assembling a byte (44_physical.md R116), and the value of a 32-bit operand (R57). -/

namespace Sys2Proof.Machine

/-- The bits of a byte, bit 7 first (R50). -/
def bitsMsbFirst (x : Byte) : List Bit :=
  [x.getLsbD 7, x.getLsbD 6, x.getLsbD 5, x.getLsbD 4, x.getLsbD 3, x.getLsbD 2, x.getLsbD 1, x.getLsbD 0]

/-- `x[6:0] ++ b`: shift left, the new bit in bit 0 (R116). -/
def shiftIn (x : Byte) (b : Bit) : Byte := x.extractLsb' 0 7 ++ BitVec.ofBool b

/-- The byte that eight bits assemble, the first of them ending in bit 7 (R50, R116). -/
def byteOfBits (bits : List Bit) : Byte := bits.foldl shiftIn 0x00

/-- The number of 1 bits of a byte (00_scope.md R7). -/
def popcount (x : Byte) : Nat := (bitsMsbFirst x).count true

/-- `sext_32` of an operand field (R57). -/
def signedValue (v : BitVec 32) : Int := v.toInt

end Sys2Proof.Machine
end

