-- ==== Sys2Proof/Config.lean ====
section
/-! DEFINITION. The parameters of 00_scope.md R5 (the configuration block `CFG` of 10_state.md R21) and the
free values: constants without a body for what the spec leaves open (logs 4, 5, 14). -/

namespace Sys2Proof

/-- `FRAMING_VARIANT` (R5). -/
inductive FramingVariant where
  | simple
  | parity
deriving DecidableEq, Repr

/-- `MEDIUM_VARIANT` (R5). -/
inductive MediumVariant where
  | perfect
  | noisy
deriving DecidableEq, Repr

/-- `DRAW_POLICY` (R5, 41_medium.md R86): whether a concrete generator consumes a draw that is not read. -/
inductive DrawPolicy where
  | shortCircuit
  | always
deriving DecidableEq, Repr

/-- A real in [0,1] (R5), as plain data: a fraction `num / (below + 1)`, or any real at all, by a name whose binary
digits are the free values `Config.realDigit` (log 14). The number it stands for is `Machine.ProbabilityIs`. -/
inductive Probability where
  | fraction (below : Nat) (num : Fin (below + 2))
  | real (name : Nat)
deriving DecidableEq, Repr

/-- A sample of a uniform draw, in [0,1) by its type (41_medium.md R86), as the fraction `num / (below + 1)` (log 14). -/
structure UniformSample where
  /-- The denominator less one. -/
  below : Nat
  num : Fin (below + 1)
deriving DecidableEq, Repr

/-- The configuration block `CFG` (R21), with the parameters of R5. A `maxPayload` is a positive integer, none is
"unbounded" (log 15). -/
structure Config where
  framing : FramingVariant
  medium : MediumVariant
  start : Byte
  stop : Byte
  esc : Byte
  maxPayload : Option ℕ+
  rxBufMax : Nat
  maxBurst : Nat
  pStart : Probability
  pErr : Probability
  emptySendEmitsFrame : Bool
  testMessages : List (List Byte)
  drawPolicy : DrawPolicy
deriving DecidableEq, Repr

/-- The values this hardware takes (R5) for the given variants. DESIGN CHOICE: the two OPEN parameters,
`TEST_MESSAGES` and `DRAW_POLICY`, are given the values of logs 2 and 3; unsafe for a claim that rests on them. -/
def Config.ofVariants (framing : FramingVariant) (medium : MediumVariant) : Config where
  framing := framing
  medium := medium
  start := 0x7B
  stop := 0x7D
  esc := 0x5C
  maxPayload := match framing with
    | .simple => none
    | .parity => some 8
  rxBufMax := 1024
  maxBurst := 15
  pStart := .fraction 999 5
  pErr := .fraction 99 25
  emptySendEmitsFrame := false
  testMessages := []
  drawPolicy := .always

/-- The configuration of `State.reset`. DESIGN CHOICE: the variants are arguments of construction (R5); PARITY
over the PERFECT medium is the one named here (log 1); unsafe for a claim that rests on it. -/
def Config.named : Config := Config.ofVariants .parity .perfect

/-- FREE VALUE: the `StartHit` of a noisy transfer for which the host supplied no draw (R86, log 4). -/
opaque Config.freeStartHit : Nat → Bit

/-- FREE VALUE: the `FlipHit` of a noisy transfer for which the host supplied no draw (R86, log 4). -/
opaque Config.freeFlipHit : Nat → Bit

/-- FREE VALUE: binary digit k after the point of the real in [0,1] that a name stands for (R5, log 14). Every real in
[0,1] has such digits (`Machine.exists_digits`). -/
opaque Config.realDigit : (name : Nat) → (k : Nat) → Fin 2

/-- FREE VALUE: a receive buffer's content after `FRAMING_BAD_START` (43_framing_rx.md R107, item U4, log 5). -/
opaque Config.freeRxBuf : Nat → List Byte

end Sys2Proof
end

