-- ==== Sys2Proof/WellFormed.lean ====
section
/-! DEFINITION. Which instructions have an encoding: LEN16 is 16 bits, so a command's bytes carry at most 65535 data
bytes (30_encoding.md R57). Every other operand is well formed by its type. The limit is the encoding's, not the
engine's: a meaning runs on longer data too (R57, log 16). -/

namespace Sys2Proof

/-- The most data bytes LEN16 can count (R57). -/
def maxDataBytes : Nat := 65535

/-- The data sequence an instruction carries, if its format has one (R56: CF3 and CF6). -/
def Instr.dataBytes : Instr → List Byte
  | .phySend _ data => data
  | .dlSend _ data => data
  | .bvFromBytes data _ _ => data
  | .reset => []
  | .rdStatus => []
  | .medRegister _ => []
  | .medSend _ _ => []
  | .phyReceive _ _ => []
  | .dlBind _ => []
  | .dlReceive _ _ => []
  | .bvNew => []
  | .bvSet _ _ => []
  | .bvGet _ => []
  | .bvLen => []
  | .bvToBytes => []
  | .netSend _ => []

/-- The instruction can be written as a command (R57). -/
abbrev WellFormed (i : Instr) : Prop := i.dataBytes.length ≤ maxDataBytes

end Sys2Proof
end

