-- ==== Sys2Proof/Decode.lean ====
section
/-! DEFINITION. The command interface's decoder and encoder (30_encoding.md R55..R61, R63, R64). The decoder is total
on byte strings: it answers a command, the illegal command, a truncated string, or the end of the stream. -/

namespace Sys2Proof

/-- The opcodes of the map (R58). -/
inductive Opcode where
  | reset | rdStatus | medRegister | medSend | phySend | phyReceive | dlBind | dlSend | dlReceive
  | bvNew | bvFromBytes | bvSet | bvGet | bvLen | bvToBytes | netSend
deriving DecidableEq, Repr

/-- The command formats (R56). -/
inductive Format where
  | cf0 | cf1 | cf2 | cf2b | cf3 | cf4 | cf5 | cf6
deriving DecidableEq, Repr

/-- What a byte string spells (R61). `rest` is the stream after the bytes the decoder consumed. -/
inductive Decoded where
  /-- A legal command of R58. -/
  | command (i : Instr) (rest : List Byte)
  /-- The illegal command of R60. -/
  | illegal (rest : List Byte)
  /-- The string ends before the command's last byte (R59). -/
  | truncated
  /-- No byte is left: the stream is used up (45_network_system.md R129). -/
  | endOfStream
deriving DecidableEq, Repr

/-! ## The opcode map and the formats -/

/-- Byte 0 of an opcode's commands (R58). -/
def Opcode.byte : Opcode → Byte
  | .reset => 0x01
  | .rdStatus => 0x02
  | .medRegister => 0x10
  | .medSend => 0x11
  | .phySend => 0x20
  | .phyReceive => 0x21
  | .dlBind => 0x30
  | .dlSend => 0x31
  | .dlReceive => 0x32
  | .bvNew => 0x40
  | .bvFromBytes => 0x41
  | .bvSet => 0x42
  | .bvGet => 0x43
  | .bvLen => 0x44
  | .bvToBytes => 0x45
  | .netSend => 0x50

/-- The opcode that byte 0 names, matched on all 8 bits; every value R60 lists is none. -/
def opcodeOf (b : Byte) : Option Opcode :=
  match b.toNat with
  | 0x01 => some .reset
  | 0x02 => some .rdStatus
  | 0x10 => some .medRegister
  | 0x11 => some .medSend
  | 0x20 => some .phySend
  | 0x21 => some .phyReceive
  | 0x30 => some .dlBind
  | 0x31 => some .dlSend
  | 0x32 => some .dlReceive
  | 0x40 => some .bvNew
  | 0x41 => some .bvFromBytes
  | 0x42 => some .bvSet
  | 0x43 => some .bvGet
  | 0x44 => some .bvLen
  | 0x45 => some .bvToBytes
  | 0x50 => some .netSend
  | _ => none

/-- The format column of R58. -/
def Opcode.format : Opcode → Format
  | .reset => .cf0
  | .rdStatus => .cf0
  | .medRegister => .cf1
  | .medSend => .cf2
  | .phySend => .cf3
  | .phyReceive => .cf2
  | .dlBind => .cf1
  | .dlSend => .cf3
  | .dlReceive => .cf2b
  | .bvNew => .cf0
  | .bvFromBytes => .cf6
  | .bvSet => .cf4
  | .bvGet => .cf5
  | .bvLen => .cf0
  | .bvToBytes => .cf0
  | .netSend => .cf1

/-! ## Operand fields (R57) -/

/-- LEN16, big-endian and unsigned. -/
def len16 (hi lo : Byte) : Nat := 256 * hi.toNat + lo.toNat

/-- A big-endian 32-bit field; its value is the two's complement of these bits (`BitVec.toInt`). -/
def word32 (b0 b1 b2 b3 : Byte) : BitVec 32 := b0 ++ b1 ++ b2 ++ b3

/-- STN: bits 7:1 must be 0, bit 0 is the station id. -/
def stationOf (b : Byte) : Option Station :=
  match b.toNat with
  | 0 => some .st0
  | 1 => some .st1
  | _ => none

/-- BIT: bits 7:1 must be 0, bit 0 is the bit value. -/
def bitOf (b : Byte) : Option Bit :=
  match b.toNat with
  | 0 => some false
  | 1 => some true
  | _ => none

/-- How many bytes follow byte 0 in a command of this format (R59). CF3 and CF6 also read LEN16 in those bytes:
none where the string ends before it. -/
def operandLength (f : Format) (body : List Byte) : Option Nat :=
  match f with
  | .cf0 => some 0
  | .cf1 => some 1
  | .cf2 => some 2
  | .cf2b => some 2
  | .cf3 =>
    match body with
    | _ :: hi :: lo :: _ => some (3 + len16 hi lo)
    | _ => none
  | .cf4 => some 5
  | .cf5 => some 4
  | .cf6 =>
    match body with
    | hi :: lo :: _ => some (10 + len16 hi lo)
    | _ => none

/-- The operand of a CF1 command. -/
def readStation (f : Station → Instr) (body : List Byte) : Option Instr :=
  match body with
  | [s] => (stationOf s).map f
  | _ => none

/-- The operands of a CF2 command. -/
def readStationBit (f : Station → Bit → Instr) (body : List Byte) : Option Instr :=
  match body with
  | [s, b] => (stationOf s).bind fun s => (bitOf b).map (f s)
  | _ => none

/-- The operands of a CF2B command: the byte is taken whole. -/
def readStationByte (f : Station → Byte → Instr) (body : List Byte) : Option Instr :=
  match body with
  | [s, x] => (stationOf s).map fun s => f s x
  | _ => none

/-- The operands of a CF3 command: after LEN16, the data bytes. -/
def readStationData (f : Station → List Byte → Instr) (body : List Byte) : Option Instr :=
  match body with
  | s :: _ :: _ :: data => (stationOf s).map fun s => f s data
  | _ => none

/-- The operands of a CF4 command. -/
def readIndexBit (f : BitVec 32 → Bit → Instr) (body : List Byte) : Option Instr :=
  match body with
  | [i0, i1, i2, i3, b] => (bitOf b).map (f (word32 i0 i1 i2 i3))
  | _ => none

/-- The operand of a CF5 command. -/
def readIndex (f : BitVec 32 → Instr) (body : List Byte) : Option Instr :=
  match body with
  | [i0, i1, i2, i3] => some (f (word32 i0 i1 i2 i3))
  | _ => none

/-- The operands of a CF6 command: LEN16, the data bytes, BEGIN32, END32. -/
def readDataRange (f : List Byte → BitVec 32 → BitVec 32 → Instr) (body : List Byte) : Option Instr :=
  match body with
  | hi :: lo :: tail =>
    match tail.drop (len16 hi lo) with
    | [b0, b1, b2, b3, e0, e1, e2, e3] =>
      some (f (tail.take (len16 hi lo)) (word32 b0 b1 b2 b3) (word32 e0 e1 e2 e3))
    | _ => none
  | _ => none

/-- The instruction an opcode and its whole operand bytes spell; none where STN or BIT has a reserved bit set (R60). -/
def readOperands (op : Opcode) (body : List Byte) : Option Instr :=
  match op with
  | .reset => some .reset
  | .rdStatus => some .rdStatus
  | .medRegister => readStation .medRegister body
  | .medSend => readStationBit .medSend body
  | .phySend => readStationData .phySend body
  | .phyReceive => readStationBit .phyReceive body
  | .dlBind => readStation .dlBind body
  | .dlSend => readStationData .dlSend body
  | .dlReceive => readStationByte .dlReceive body
  | .bvNew => some .bvNew
  | .bvFromBytes => readDataRange .bvFromBytes body
  | .bvSet => readIndexBit .bvSet body
  | .bvGet => readIndex .bvGet body
  | .bvLen => some .bvLen
  | .bvToBytes => some .bvToBytes
  | .netSend => readStation .netSend body

/-- Decodes the command at the head of a stream. DEDUCED (log 9, log 10): a string that ends before its command's
last byte is truncated whatever its operand bits are (R59, R61); an unlisted opcode consumes its byte only, a
reserved bit consumes the whole command (R60). -/
def decode (stream : List Byte) : Decoded :=
  match stream with
  | [] => .endOfStream
  | b :: body =>
    match opcodeOf b with
    | none => .illegal body
    | some op =>
      match operandLength op.format body with
      | none => .truncated
      | some n =>
        if body.length < n then .truncated
        else
          match readOperands op (body.take n) with
          | some i => .command i (body.drop n)
          | none => .illegal (body.drop n)

/-! ## The encoder -/

/-- The STN byte of a station (R57). -/
def stationByte : Station → Byte
  | .st0 => 0x00
  | .st1 => 0x01

/-- The BIT byte of a bit (R57). -/
def bitByte : Bit → Byte
  | false => 0x00
  | true => 0x01

/-- The two bytes of LEN16, high byte first (R57). -/
def len16Bytes (n : Nat) : List Byte := [BitVec.ofNat 8 (n / 256), BitVec.ofNat 8 n]

/-- The four bytes of a 32-bit field, high byte first (R57). -/
def word32Bytes (v : BitVec 32) : List Byte :=
  [v.extractLsb' 24 8, v.extractLsb' 16 8, v.extractLsb' 8 8, v.extractLsb' 0 8]

/-- The bytes of a command (R55, R56, R58). -/
def encode : Instr → List Byte
  | .reset => [Opcode.reset.byte]
  | .rdStatus => [Opcode.rdStatus.byte]
  | .medRegister s => [Opcode.medRegister.byte, stationByte s]
  | .medSend s b => [Opcode.medSend.byte, stationByte s, bitByte b]
  | .phySend s data => Opcode.phySend.byte :: stationByte s :: (len16Bytes data.length ++ data)
  | .phyReceive s b => [Opcode.phyReceive.byte, stationByte s, bitByte b]
  | .dlBind s => [Opcode.dlBind.byte, stationByte s]
  | .dlSend s data => Opcode.dlSend.byte :: stationByte s :: (len16Bytes data.length ++ data)
  | .dlReceive s x => [Opcode.dlReceive.byte, stationByte s, x]
  | .bvNew => [Opcode.bvNew.byte]
  | .bvFromBytes data first last =>
    Opcode.bvFromBytes.byte :: (len16Bytes data.length ++ data ++ word32Bytes first ++ word32Bytes last)
  | .bvSet index b => Opcode.bvSet.byte :: (word32Bytes index ++ [bitByte b])
  | .bvGet index => Opcode.bvGet.byte :: word32Bytes index
  | .bvLen => [Opcode.bvLen.byte]
  | .bvToBytes => [Opcode.bvToBytes.byte]
  | .netSend s => [Opcode.netSend.byte, stationByte s]

/-- The bytes of a command list: commands follow each other with no padding (R55). -/
def encodeAll (is : List Instr) : List Byte := is.flatMap encode

/-- The pseudo-instruction BOOT (R63, 70_reset_and_hazards.md R152). -/
def boot : List Instr := [.reset, .medRegister .st0, .medRegister .st1, .dlBind .st0, .dlBind .st1]

/-! ## A table word as command bytes -/

/-- The first `nbits` bits of `w` as bytes: byte k is bits 8k+7..8k. -/
def tableBytes (nbits w : Nat) : List Byte :=
  (List.range ((nbits + 7) / 8)).map fun k => BitVec.ofNat 8 (w >>> (8 * k))

/-- The command that a table word stands for: its bytes, followed by as many zero bytes as its length asks for. -/
def tableCommand (nbits w : Nat) : List Byte :=
  let bytes := tableBytes nbits w
  match bytes with
  | [] => []
  | b :: body =>
    match opcodeOf b with
    | none => [b]
    | some op =>
      match operandLength op.format (body ++ [0, 0, 0]) with
      | none => [b]
      | some n => b :: (body ++ List.replicate n 0).take n

/-- The instruction the decoder reads from a table word. -/
def decodeTableWord (nbits w : Nat) : Option Instr :=
  match decode (tableCommand nbits w) with
  | .command i _ => some i
  | _ => none

end Sys2Proof
end

