-- ==== Sys2Proof/Machine/State.lean ====
section
/-! DEFINITION. The machine's state (10_state.md), its events (R24), the fault codes (60_exceptions.md R130) and the
state after reset (70_reset_and_hazards.md R150). -/

namespace Sys2Proof.Machine

/-- The causes of R130. Their 8-bit codes are `FaultCode.code` (Machine/Flags.lean). Raising one is a NEXT state. -/
inductive FaultCode where
  | illegalCommand
  | cfgMediumFull
  | cfgSenderUnregistered
  | cfgNoPeer
  | cfgNoPhy
  | cfgClientAlready
  | cfgNoClient
  | framingBadStart
  | capacityRxOverflow
  | bvNegIndex
  | bvBadRange
deriving DecidableEq, Repr

/-- What the sequencer takes: a legal command, or the illegal command of R60. -/
inductive Command where
  | legal (i : Instr)
  | illegal
deriving DecidableEq, Repr

/-- The value a query command returns (R24, R73, R74, R75, R126). -/
inductive QueryValue where
  | status (code : Byte)
  | bit (b : Bit)
  | length (n : Nat)
  | bytes (q : List Byte)
deriving DecidableEq, Repr

/-- The diagnostics of R141. -/
inductive Diagnostic where
  | framingError (s : Station) (b0 : Byte)
  | parityMismatch (s : Station) (payload : List Byte) (received computed : Byte)
deriving DecidableEq, Repr

/-- The trace events of R24. -/
inductive Event where
  | wire (src dst : Station) (sent delivered : Bit)
  | deliver (s : Station) (payload : List Byte)
  | diag (d : Diagnostic)
  | fault (c : FaultCode)
  | result (v : QueryValue)
  | refused (c : Command)
deriving DecidableEq, Repr

/-- The two Boolean inputs of one noisy transfer (41_medium.md R86). -/
structure Draw where
  startHit : Bit
  flipHit : Bit
deriving DecidableEq, Repr

/-- The per-station state (R16, R17, R18; 60_exceptions.md R142). -/
structure StationState where
  /-- `BOUND_s` (R16). -/
  bound : Bool
  /-- `PHY_s.RXSHIFT` (R17). -/
  rxShift : Byte
  /-- `PHY_s.RXCOUNT` (R17). -/
  rxCount : BitVec 3
  /-- `DL_s.RXBUF` (R18). -/
  rxBuf : List Byte
deriving DecidableEq, Repr

/-- The BV bit space (20_memory.md R30), in one canonical form: the indices that hold 1, strictly rising. An
unlisted index reads 0, and no index that reads 0 is listed (`Memory.wf`, log 12). -/
abbrev Memory := List Nat

/-- The scratch bit vector unit (R22): `BV.BITS` and `BV.LEN`. -/
structure BitVectorUnit where
  bits : Memory
  len : Nat
deriving DecidableEq, Repr

/-- The machine. The last four fields are the model's own: the observation (R24), the host's inputs (R27) and the
counter of free values (log 4). -/
structure State where
  /-- `CFG` (R21). -/
  cfg : Config
  /-- `MED.SLOT[0]`, none is EMPTY (R11). -/
  slot0 : Option Station
  /-- `MED.SLOT[1]` (R11). -/
  slot1 : Option Station
  /-- `MED.BURST`, 8-bit two's complement (R14). -/
  burst : BitVec 8
  /-- Station 0. -/
  station0 : StationState
  /-- Station 1. -/
  station1 : StationState
  /-- The BV unit (R22). -/
  bv : BitVectorUnit
  /-- `STATUS`, whose one field is `STATUS.FAULT` in bits 7:0 (R20). -/
  status : Byte
  /-- The output trace, oldest event first (R24, log 7). -/
  trace : List Event
  /-- The bytes of the command stream not yet taken (R54, log 6). -/
  input : List Byte
  /-- Draws the host has supplied, the next transfer's first (R86, log 4). -/
  draws : List Draw
  /-- How many free values have been used (log 4). -/
  freeCount : Nat
deriving DecidableEq, Repr

/-- Why a step would stop without a next state. The spec names no such stop: its own faults (R130) are next states,
so this type has no constructor (log 11; safe: nothing is refused or stopped by it). -/
inductive Fault where
deriving DecidableEq, Repr

/-- Why there is no step. -/
inductive Refusal where
  /-- Raised by an arm of `exec` whose instruction has no meaning yet; safe. -/
  | notModelled (mnemonic : String)
  /-- Raised by `step` at a string that ends before its command does: "refused at decode", "there is no step, and
  the run ends there without a final state" (R59, R121(c)); safe. -/
  | truncatedCommand
  /-- Raised by `step` under a configuration that R6 does not admit: the model "refuses every other configuration by
  name"; safe. -/
  | configurationNotAdmitted
deriving DecidableEq, Repr

/-- A station at reset (R150). -/
def StationState.reset : StationState where
  bound := false
  rxShift := 0x00
  rxCount := 0
  rxBuf := []

/-- The BV unit at reset, the state after BV_NEW (R22, R150). -/
def BitVectorUnit.reset : BitVectorUnit where
  bits := []
  len := 0

/-- The engine just constructed with a configuration (R150, R151): every element at its reset value. DESIGN CHOICE
for the model's own fields (logs 4, 6, 7): no event yet, no command, no draw, no free value used. -/
def State.powerOn (cfg : Config) : State where
  cfg := cfg
  slot0 := none
  slot1 := none
  burst := 0
  station0 := StationState.reset
  station1 := StationState.reset
  bv := BitVectorUnit.reset
  status := 0x00
  trace := []
  input := []
  draws := []
  freeCount := 0

/-- The machine right after reset (R150). DESIGN CHOICE: under the configuration of log 1. -/
def State.reset : State := State.powerOn Config.named

end Sys2Proof.Machine
end

