-- ==== Sys2Proof/Machine/Flags.lean ====
section
/-! DEFINITION. What the engine has in place of flags (10_state.md R25): the halted condition, the byte classes
(30_encoding.md R45), the completion predicate (43_framing_rx.md R101), the check byte (R48), the fault codes
(60_exceptions.md R130), and the test that a configuration is admitted (00_scope.md R6). -/

namespace Sys2Proof.Machine

/-- The code written to `STATUS.FAULT` (R130). -/
def FaultCode.code : FaultCode → Byte
  | .illegalCommand => 0x01
  | .cfgMediumFull => 0x10
  | .cfgSenderUnregistered => 0x11
  | .cfgNoPeer => 0x12
  | .cfgNoPhy => 0x13
  | .cfgClientAlready => 0x14
  | .cfgNoClient => 0x15
  | .framingBadStart => 0x20
  | .capacityRxOverflow => 0x30
  | .bvNegIndex => 0x40
  | .bvBadRange => 0x41

/-- Every cause of R130. -/
def FaultCode.all : List FaultCode :=
  [.illegalCommand, .cfgMediumFull, .cfgSenderUnregistered, .cfgNoPeer, .cfgNoPhy, .cfgClientAlready, .cfgNoClient,
    .framingBadStart, .capacityRxOverflow, .bvNegIndex, .bvBadRange]

/-- "The engine is halted when STATUS.FAULT ≠ 0x00" (R20). -/
def State.halted (s : State) : Bool := s.status != 0x00

/-- The classes of a byte on the wire and in a receive buffer (R45). -/
inductive ByteClass where
  | start
  | stop
  | esc
  | data
deriving DecidableEq, Repr

/-- The class of a byte (R45). -/
def classOf (cfg : Config) (b : Byte) : ByteClass :=
  if b = cfg.start then .start
  else if b = cfg.stop then .stop
  else if b = cfg.esc then .esc
  else .data

/-- A marker is one of START, STOP, ESC (00_scope.md R9). -/
def isMarker (cfg : Config) (b : Byte) : Bool := classOf cfg b != .data

/-- "Frame complete": the last byte is STOP and the byte before it is not ESC, a one-byte look-back (R101). -/
def complete (cfg : Config) (q : List Byte) : Bool :=
  decide (2 ≤ q.length) && q[q.length - 1]? == some cfg.stop && q[q.length - 2]? != some cfg.esc

/-- The check byte `CHK(c)`: the number of 1 bits of the chunk, modulo 2, as a byte (R48). -/
def checkByte (c : List Byte) : Byte := BitVec.ofNat 8 ((c.map popcount).sum % 2)

/-- The configurations the model admits, conditions (a) to (e) of R6 in order. -/
def admitted (cfg : Config) : Bool :=
  (cfg.start != cfg.stop && cfg.start != cfg.esc && cfg.stop != cfg.esc)
    && (cfg.framing != .parity
      || [cfg.start, cfg.stop, cfg.esc].all fun m => m != 0x00 && m != 0x01)
    && (cfg.framing != .parity || cfg.maxPayload.all fun m => decide (1 ≤ (m : Nat)))
    && decide (1 ≤ cfg.maxBurst ∧ cfg.maxBurst ≤ 127)
    && decide (2 ≤ cfg.rxBufMax)

end Sys2Proof.Machine
end

