-- ==== Sys2Proof/Machine/Framing.lean ====
section
/-! DEFINITION. Frames as byte sequences: stuffing and frame build on the send side (30_encoding.md R46, R47;
42_framing_tx.md R90, R91, R92), the unstuffing walk on the receive side (43_framing_rx.md R104). -/

namespace Sys2Proof.Machine

/-- `e(b)`: an ESC before a marker, the byte itself unchanged (R47). -/
def stuffByte (cfg : Config) (b : Byte) : List Byte := if isMarker cfg b then [cfg.esc, b] else [b]

/-- `stuff(c)` (R47). -/
def stuff (cfg : Config) (c : List Byte) : List Byte := c.flatMap (stuffByte cfg)

/-- `frame(c)` (R46, R91); the check byte stands unstuffed before STOP (R93). -/
def frame (cfg : Config) (c : List Byte) : List Byte :=
  match cfg.framing with
  | .simple => [cfg.start] ++ stuff cfg c ++ [cfg.stop]
  | .parity => [cfg.start] ++ stuff cfg c ++ [checkByte c] ++ [cfg.stop]

/-- Pieces of m bytes, the last one shorter (R90). `fuel` bounds the number of pieces; the length of the data is
enough of it where `m ≥ 1`. -/
def piecesOf (m : Nat) : Nat → List Byte → List (List Byte)
  | 0, _ => []
  | _ + 1, [] => []
  | fuel + 1, b :: rest => (b :: rest).take m :: piecesOf m fuel ((b :: rest).drop m)

/-- `chunks(data)` (R90), and of an empty buffer (R92). -/
def chunks (cfg : Config) (data : List Byte) : List (List Byte) :=
  match data with
  | [] => if cfg.emptySendEmitsFrame then [[]] else []
  | _ =>
    match cfg.framing, cfg.maxPayload with
    | .simple, _ => [data]
    | .parity, none => [data]
    | .parity, some m => piecesOf m data.length data

/-- The walk of R104 over the bytes from index 1 up to the boundary: an ESC makes the next byte literal; an ESC just
before the boundary is discarded. -/
def unstuff (esc : Byte) : List Byte → List Byte
  | [] => []
  | [b] => if b = esc then [] else [b]
  | b :: x :: rest => if b = esc then x :: unstuff esc rest else b :: unstuff esc (x :: rest)

/-- `extract(q, B)` (R104). -/
def extract (cfg : Config) (q : List Byte) (boundary : Nat) : List Byte :=
  unstuff cfg.esc ((q.take boundary).drop 1)

/-- The boundary of R102: the index of STOP (SIMPLE) or of the check byte (PARITY). -/
def boundary (cfg : Config) (q : List Byte) : Nat :=
  match cfg.framing with
  | .simple => q.length - 1
  | .parity => q.length - 2

end Sys2Proof.Machine
end

