-- ==== Sys2Proof/Machine/Ops.lean ====
section
/-! DEFINITION. The named operations over the state: reading and updating its fields, the pseudocode primitives of
00_scope.md R8, fault entry (60_exceptions.md R131) and RESET beside it, the BV access primitives (20_memory.md R31) and
the receive-buffer primitives (R33). -/

namespace Sys2Proof.Machine

/-! ## Running a rule -/

/-- Where a rule's pseudocode stands: run to its end, or aborted by a fault, with the state as it stood (R132). -/
inductive Run where
  | done (s : State)
  | aborted (s : State)
deriving DecidableEq, Repr

/-- The state a rule leaves: nothing is rolled back (R132). -/
def Run.final : Run → State
  | .done s => s
  | .aborted s => s

/-- The next statement, which does not run after a fault (R132). -/
def Run.andThen (r : Run) (next : State → Run) : Run :=
  match r with
  | .done s => next s
  | .aborted s => .aborted s

/-- `for x in xs: body x`, stopped by the first fault. -/
def forEach {α : Type} (body : α → State → Run) : List α → State → Run
  | [], s => .done s
  | x :: xs, s => (body x s).andThen (forEach body xs)

/-! ## Fields -/

/-- Station s's part of the state (R142). -/
def State.station (s : State) : Station → StationState
  | .st0 => s.station0
  | .st1 => s.station1

/-- Replaces station st's part of the state. -/
def State.setStation (s : State) (st : Station) (v : StationState) : State :=
  match st with
  | .st0 => { s with station0 := v }
  | .st1 => { s with station1 := v }

/-- `emit E`: append an event to the trace; "emitting has no other effect" (R8). -/
def State.emit (s : State) (e : Event) : State := { s with trace := s.trace ++ [e] }

/-- Writes `STATUS`. -/
def State.setStatus (s : State) (v : Byte) : State := { s with status := v }

/-- Writes `MED.SLOT[0]`. -/
def State.setSlot0 (s : State) (v : Option Station) : State := { s with slot0 := v }

/-- Writes `MED.SLOT[1]`. -/
def State.setSlot1 (s : State) (v : Option Station) : State := { s with slot1 := v }

/-- Writes `MED.BURST`. -/
def State.setBurst (s : State) (v : BitVec 8) : State := { s with burst := v }

/-- Writes the BV unit. -/
def State.setBv (s : State) (v : BitVectorUnit) : State := { s with bv := v }

/-- Replaces the part of the command stream not yet taken. -/
def State.setInput (s : State) (q : List Byte) : State := { s with input := q }

/-- Replaces the supplied draws. -/
def State.setDraws (s : State) (ds : List Draw) : State := { s with draws := ds }

/-- One more free value has been used (log 4). -/
def State.useFree (s : State) : State := { s with freeCount := s.freeCount + 1 }

/-- Writes `BOUND_st` (R16). -/
def State.setBound (s : State) (st : Station) (v : Bool) : State :=
  s.setStation st { s.station st with bound := v }

/-- Writes `PHY_st.RXSHIFT` and `PHY_st.RXCOUNT` (R17). -/
def State.setDeserializer (s : State) (st : Station) (shift : Byte) (count : BitVec 3) : State :=
  s.setStation st { s.station st with rxShift := shift, rxCount := count }

/-- Writes `DL_st.RXBUF` (R18). -/
def State.setRxBuf (s : State) (st : Station) (q : List Byte) : State :=
  s.setStation st { s.station st with rxBuf := q }

/-! ## Faults and reset -/

/-- `raise Fault(c)` (R131): the first fault's code is kept, `Fault(c)` is emitted, the command aborts. -/
def raiseFault (c : FaultCode) (s : State) : Run :=
  .aborted ((if s.status = 0x00 then s.setStatus c.code else s).emit (.fault c))

/-- RESET (45_network_system.md R125), the only way out of a fault (R133): every state element of R150 at its reset
value. The configuration (R151), the trace (not state, R150, log 7) and the host's inputs stay (logs 4, 6). -/
def resetState (s : State) : State :=
  { s with
    slot0 := none, slot1 := none, burst := 0
    station0 := StationState.reset, station1 := StationState.reset
    bv := BitVectorUnit.reset, status := 0x00 }

/-! ## The BV bit space -/

/-- The number of indices of the bit space, 0..2^31-1 (R30). -/
def bvSpaceSize : Nat := 2 ^ 31

/-- The canonical form: indices of the space, strictly rising (log 12). -/
abbrev Memory.wf (m : Memory) : Prop := m.Pairwise (· < ·) ∧ ∀ i ∈ m, i < bvSpaceSize

/-- One bit of the space; an unlisted index reads 0 (R22, R30). -/
def Memory.read (m : Memory) (i : Nat) : Bit := m.contains i

/-- Lists index i in its place. -/
def Memory.list (m : Memory) (i : Nat) : Memory :=
  match m with
  | [] => [i]
  | j :: rest => if i < j then i :: j :: rest else if i = j then j :: rest else j :: Memory.list rest i

/-- Writes one bit: a 1 lists its index, a 0 takes it off the list. -/
def Memory.write (m : Memory) (i : Nat) (v : Bit) : Memory :=
  if v then Memory.list m i else m.filter (· != i)

/-- The bit space whose first `n` bits are those of `f`, all others 0. -/
def Memory.ofBits (n : Nat) (f : Nat → Bit) : Memory := (List.range n).filter f

/-- `BVRead(i)` (R31). -/
def bvRead (u : BitVectorUnit) (i : Nat) : Bit := Memory.read u.bits i

/-- `BVWrite(i, v)` (R31): the bit, then `LEN <- max(LEN, i+1)`. -/
def bvWrite (u : BitVectorUnit) (i : Nat) (v : Bit) : BitVectorUnit :=
  { bits := Memory.write u.bits i v, len := max u.len (i + 1) }

/-- Bit i of a byte sequence: byte `i div 8`, bit position `7 - (i mod 8)` (R32). -/
def byteSequenceBit (q : List Byte) (i : Nat) : Bit := (q.getD (i / 8) 0x00).getLsbD (7 - i % 8)

/-- The vector whose bits are those of a byte sequence, MSB first per byte (40_bitvector.md R71). -/
def bvOfBytes (q : List Byte) : BitVectorUnit :=
  { bits := Memory.ofBits (8 * q.length) (byteSequenceBit q), len := 8 * q.length }

/-- Byte k of the exported vector: bits 8k..8k+7 below `BV.LEN`, the others 0 (R75). -/
def bvByte (u : BitVectorUnit) (k : Nat) : Byte :=
  byteOfBits ((List.range 8).map fun j => decide (8 * k + j < u.len) && bvRead u (8 * k + j))

/-- `toBytes()`: `ceil(LEN / 8)` bytes (R75). -/
def bvBytes (u : BitVectorUnit) : List Byte := (List.range ((u.len + 7) / 8)).map (bvByte u)

/-! ## The receive buffers -/

/-- `Append(DL_st.RXBUF, x)` (R33). -/
def State.appendRx (s : State) (st : Station) (x : Byte) : State := s.setRxBuf st ((s.station st).rxBuf ++ [x])

/-- `DL_st.RXBUF <- []` (R33, 43_framing_rx.md R107). -/
def State.clearRx (s : State) (st : Station) : State := s.setRxBuf st []

/-- Leaves `DL_st.RXBUF` unspecified after `FRAMING_BAD_START` (R107, item U4): a free value within the bound of R18
(log 5). -/
def State.releaseRx (s : State) (st : Station) : State :=
  (s.setRxBuf st ((Config.freeRxBuf s.freeCount).take s.cfg.rxBufMax)).useFree

/-! ## Draws -/

/-- The draw of the next noisy transfer: the host's, or free values where it supplied none (R86, log 4). -/
def State.nextDraw (s : State) : Draw :=
  match s.draws with
  | d :: _ => d
  | [] => { startHit := Config.freeStartHit s.freeCount, flipHit := Config.freeFlipHit s.freeCount }

/-- The state once that draw is taken. -/
def State.takeDraw (s : State) : State :=
  match s.draws with
  | _ :: ds => s.setDraws ds
  | [] => s.useFree

end Sys2Proof.Machine
end

