-- ==== Sys2Proof/Machine/Noise.lean ====
section
/-! DEFINITION. What the medium does to a bit (41_medium.md R83..R86), and how a concrete random generator would
supply the draws (R86; used by no rule). -/

namespace Sys2Proof.Machine

/-- `inBurst` of R84. -/
def inBurst (c : BitVec 8) (d : Draw) : Bool := decide (0 < c.toInt) || (c == 0 && d.startHit)

/-- The counter after a noisy transfer (R84, R85): in a burst it counts up, and at `MAX_BURST` it becomes -1. -/
def burstNext (maxBurst : Nat) (c : BitVec 8) (d : Draw) : BitVec 8 :=
  if inBurst c d then
    if (c + 1).toInt = maxBurst then -1 else c + 1
  else 0

/-- The bit a noisy transfer delivers (R84). -/
def noisyBit (c : BitVec 8) (d : Draw) (b : Bit) : Bit := if inBurst c d && d.flipHit then !b else b

/-- `perfect(b)` (R83). -/
def perfectBit (b : Bit) : Bit := b

/-- The bit delivered by the next transfer of the medium (R82). -/
def State.deliveredBit (s : State) (b : Bit) : Bit :=
  match s.cfg.medium with
  | .perfect => perfectBit b
  | .noisy => noisyBit s.burst s.nextDraw b

/-- The medium's state after that transfer: the perfect one changes none and draws nothing (R83), the noisy one
takes its draw and moves the counter (R84). -/
def State.afterTransfer (s : State) : State :=
  match s.cfg.medium with
  | .perfect => s
  | .noisy => s.takeDraw.setBurst (burstNext s.cfg.maxBurst s.burst s.nextDraw)

/-! ## The source's law of the draws

No step uses these: "no rule depends on their law" (R86). -/

/-- The real number a probability of the configuration stands for (R5): the fraction, or the number with those binary
digits after the point (log 14). -/
def ProbabilityIs (p : Probability) (x : ℝ) : Prop :=
  match p with
  | .fraction below num => x = (num : ℕ) / ((below : ℝ) + 1)
  | .real name => x = Real.ofDigits (Config.realDigit name)

/-- The source's law of one transfer's draw (R86), for the configuration's reals and all real samples u and u':
`StartHit = (u < P_START)` and `FlipHit = (u' < P_ERR)`. -/
def DrawLaw (cfg : Config) (u u' : ℝ) (d : Draw) : Prop :=
  ∀ x y, ProbabilityIs cfg.pStart x → ProbabilityIs cfg.pErr y →
    (d.startHit = true ↔ u < x) ∧ (d.flipHit = true ↔ u' < y)

/-- The number a sample stands for. -/
def sampleValue (u : UniformSample) : ℚ := (u.num : ℕ) / (u.below + 1 : ℕ)

/-- A test of samples, worth `value`, decides whether they lie below a probability. -/
def DecidesHits {α : Type} (value : α → ℝ) (p : Probability) (hit : α → Bit) : Prop :=
  ∀ x, ProbabilityIs p x → ∀ u, hit u = true ↔ value u < x

/-- The test for a fraction, without a division. -/
def fractionHits (below : Nat) (num : Fin (below + 2)) (u : UniformSample) : Bit :=
  decide ((u.num : ℕ) * (below + 1) < (num : ℕ) * (u.below + 1))

/-- One transfer's draw from a generator's uniform samples, and the samples left (R86); `start` and `flip` test a sample
against `P_START` and `P_ERR` (`DecidesHits`), so that samples and parameters may be any reals. With SHORT_CIRCUIT a draw
that is not read consumes no sample, and is given as 0. None where the samples run out. DESIGN CHOICE (log 22): under
ALWAYS the first sample is StartHit's and the second FlipHit's, also where StartHit is not read; the spec gives no order
of draws (91_not_in_source.md N5). -/
def drawFromSamples {α : Type} (start flip : α → Bit) (policy : DrawPolicy) (c : BitVec 8) (us : List α) :
    Option (Draw × List α) :=
  match policy with
  | .always =>
    match us with
    | u :: u' :: rest => some (⟨start u, flip u'⟩, rest)
    | _ => none
  | .shortCircuit =>
    let first : Option (Bit × List α) :=
      if c = 0 then
        match us with
        | u :: rest => some (start u, rest)
        | [] => none
      else some (false, us)
    first.bind fun (startHit, us') =>
      if inBurst c ⟨startHit, false⟩ then
        match us' with
        | u' :: rest => some (⟨startHit, flip u'⟩, rest)
        | [] => none
      else some (⟨startHit, false⟩, us')

/-- The draws of the transfers that a generator's samples are enough for, from counter c, at most n of them (R86). The
order of the samples is that of `drawFromSamples` (log 22). -/
def drawsFromSamples {α : Type} (start flip : α → Bit) (cfg : Config) : Nat → BitVec 8 → List α → List Draw
  | 0, _, _ => []
  | n + 1, c, us =>
    match drawFromSamples start flip cfg.drawPolicy c us with
    | none => []
    | some (d, rest) => d :: drawsFromSamples start flip cfg n (burstNext cfg.maxBurst c d) rest

end Sys2Proof.Machine
end

