-- ==== Sys2Proof/Machine/Link.lean ====
section
/-! DEFINITION. The rules that commands and other rules call (00_scope.md R8 `call`), bottom up: delivery upward, frame
processing, byte receive, bit receive, bit transfer, byte send, buffer send, test traffic. -/

namespace Sys2Proof.Machine

/-- NET_RECEIVE (45_network_system.md R124). -/
def netReceive (st : Station) (p : List Byte) (s : State) : Run := .done (s.emit (.deliver st p))

/-- The start check (43_framing_rx.md R103). After the fault the buffer's content is unspecified (R107). -/
def startCheck (st : Station) (q : List Byte) (s : State) : Run :=
  if q.head? = some s.cfg.start then .done s
  else raiseFault .framingBadStart ((s.emit (.diag (.framingError st (q.headD 0x00)))).releaseRx st)

/-- SIMPLE acceptance (R105). -/
def acceptSimple (st : Station) (p : List Byte) (s : State) : Run := netReceive st p s

/-- PARITY acceptance (R106): all 8 bits of the received check byte are compared. -/
def acceptParity (st : Station) (q p : List Byte) (s : State) : Run :=
  let rc := q.getD (q.length - 2) 0x00
  let cc := checkByte p
  if rc = cc then netReceive st p s
  else .done (s.emit (.diag (.parityMismatch st p rc cc)))

/-- `processFrame` (R102) on a complete buffer. -/
def processFrame (st : Station) (q : List Byte) (s : State) : Run :=
  (startCheck st q s).andThen fun s =>
    let p := extract s.cfg q (boundary s.cfg q)
    match s.cfg.framing with
    | .simple => acceptSimple st p s
    | .parity => acceptParity st q p s

/-- DL_RECEIVE's rule (R100, R107, R108). -/
def receiveByte (st : Station) (x : Byte) (s : State) : Run :=
  if (s.station st).rxBuf.length = s.cfg.rxBufMax then raiseFault .capacityRxOverflow s
  else
    let s := s.appendRx st x
    if complete s.cfg (s.station st).rxBuf then
      (processFrame st (s.station st).rxBuf s).andThen fun s => .done (s.clearRx st)
    else .done s

/-- PHY_RECEIVE's rule (44_physical.md R116). -/
def receiveBit (st : Station) (b : Bit) (s : State) : Run :=
  let shift := shiftIn (s.station st).rxShift b
  let n := (s.station st).rxCount.toNat + 1
  if n = 8 then
    let s := s.setDeserializer st 0x00 0
    if (s.station st).bound then receiveByte st shift s else raiseFault .cfgNoClient s
  else .done (s.setDeserializer st shift (BitVec.ofNat 3 n))

/-- `peer(st)` (41_medium.md R81): slot 0 is compared first. -/
def peer (s : State) (st : Station) : Except FaultCode Station :=
  let other : Except FaultCode (Option Station) :=
    if s.slot0 = some st then .ok s.slot1
    else if s.slot1 = some st then .ok s.slot0
    else .error .cfgSenderUnregistered
  match other with
  | .ok (some r) => .ok r
  | .ok none => .error .cfgNoPeer
  | .error c => .error c

/-- MED_SEND's rule (R82): the peer first, then the transfer, `Wire`, and the receiver's PHY_RECEIVE. -/
def sendBit (st : Station) (b : Bit) (s : State) : Run :=
  match peer s st with
  | .error c => raiseFault c s
  | .ok r => receiveBit r (s.deliveredBit b) (s.afterTransfer.emit (.wire st r b (s.deliveredBit b)))

/-- The 8 transfers of one byte, MSB first (44_physical.md R115). -/
def sendByte (st : Station) (x : Byte) (s : State) : Run := forEach (sendBit st) (bitsMsbFirst x) s

/-- PHY_SEND's rule (R115). -/
def sendBytes (st : Station) (q : List Byte) (s : State) : Run := forEach (sendByte st) q s

/-- DL_SEND's rule (42_framing_tx.md R94). -/
def sendData (st : Station) (data : List Byte) (s : State) : Run :=
  if (s.station st).bound then forEach (fun c => sendBytes st (frame s.cfg c)) (chunks s.cfg data) s
  else raiseFault .cfgNoPhy s

/-- NET_SEND's rule (45_network_system.md R123). -/
def sendTestMessages (st : Station) (s : State) : Run := forEach (sendData st) s.cfg.testMessages s

/-- MED_REGISTER's rule (41_medium.md R80). -/
def registerEndpoint (st : Station) (s : State) : Run :=
  if s.slot0 = none then .done (s.setSlot0 (some st))
  else if s.slot1 = none then .done (s.setSlot1 (some st))
  else raiseFault .cfgMediumFull s

/-- DL_BIND's rule (45_network_system.md R122). -/
def bindStation (st : Station) (s : State) : Run :=
  if (s.station st).bound then raiseFault .cfgClientAlready s else .done (s.setBound st true)

/-- `return v` of a query command: `Result(v)` (R24, R120). -/
def returnValue (v : QueryValue) (s : State) : Run := .done (s.emit (.result v))

/-- The sequencer's steps 2 to 4 for one command (R120): the halted gate (R127), then the rule, to completion or to
its first fault; both are a next state (R121). -/
def perform (c : Command) (rule : State → Run) (s : State) : Host.Outcome State Fault Refusal :=
  if s.halted then .next (s.emit (.refused c)) else .next (rule s).final

/-- The same for RESET and RD_STATUS, which the halted gate lets pass (R127). -/
def performAlways (rule : State → Run) (s : State) : Host.Outcome State Fault Refusal := .next (rule s).final

end Sys2Proof.Machine
end

