-- ==== Sys2Proof/Machine/BitVector.lean ====
section
/-! DEFINITION. The bit vector unit's commands (40_bitvector.md R70..R75). -/

namespace Sys2Proof.Machine

/-- The rule of BV_FROM_BYTES (R71): the range check comes first. -/
def loadBytes (data : List Byte) (first last : BitVec 32) (s : State) : Run :=
  let b := signedValue first
  let e := signedValue last
  if 0 ≤ b ∧ b ≤ e ∧ e ≤ data.length then .done (s.setBv (bvOfBytes ((data.take e.toNat).drop b.toNat)))
  else raiseFault .bvBadRange s

/-- The rule of BV_SET (R72). -/
def setBit (index : BitVec 32) (v : Bit) (s : State) : Run :=
  let i := signedValue index
  if i < 0 then raiseFault .bvNegIndex s else .done (s.setBv (bvWrite s.bv i.toNat v))

/-- The rule of BV_GET (R73). -/
def getBit (index : BitVec 32) (s : State) : Run :=
  let i := signedValue index
  if i < 0 then raiseFault .bvNegIndex s else returnValue (.bit (bvRead s.bv i.toNat)) s

/-- BV_NEW (R70). -/
def execBvNew (s : State) : Host.Outcome State Fault Refusal :=
  perform (.legal .bvNew) (fun s => .done (s.setBv { bits := [], len := 0 })) s

/-- BV_FROM_BYTES data, begin, end (R71). -/
def execBvFromBytes (data : List Byte) (first last : BitVec 32) (s : State) : Host.Outcome State Fault Refusal :=
  perform (.legal (.bvFromBytes data first last)) (loadBytes data first last) s

/-- BV_SET index, v (R72). -/
def execBvSet (index : BitVec 32) (v : Bit) (s : State) : Host.Outcome State Fault Refusal :=
  perform (.legal (.bvSet index v)) (setBit index v) s

/-- BV_GET index (R73). -/
def execBvGet (index : BitVec 32) (s : State) : Host.Outcome State Fault Refusal :=
  perform (.legal (.bvGet index)) (getBit index) s

/-- BV_LEN (R74). -/
def execBvLen (s : State) : Host.Outcome State Fault Refusal :=
  perform (.legal .bvLen) (fun s => returnValue (.length s.bv.len) s) s

/-- BV_TO_BYTES (R75). -/
def execBvToBytes (s : State) : Host.Outcome State Fault Refusal :=
  perform (.legal .bvToBytes) (fun s => returnValue (.bytes (bvBytes s.bv)) s) s

end Sys2Proof.Machine
end

