-- ==== Sys2Proof/Machine/DataLink.lean ====
section
/-! DEFINITION. The data-link commands (45_network_system.md R122, 42_framing_tx.md R94, 43_framing_rx.md R100). -/

namespace Sys2Proof.Machine

/-- DL_BIND s (R122). -/
def execDlBind (st : Station) (s : State) : Host.Outcome State Fault Refusal :=
  perform (.legal (.dlBind st)) (bindStation st) s

/-- DL_SEND s, data (R94). -/
def execDlSend (st : Station) (data : List Byte) (s : State) : Host.Outcome State Fault Refusal :=
  perform (.legal (.dlSend st data)) (sendData st data) s

/-- DL_RECEIVE s, x (R100); it does not need `BOUND_s`. -/
def execDlReceive (st : Station) (x : Byte) (s : State) : Host.Outcome State Fault Refusal :=
  perform (.legal (.dlReceive st x)) (receiveByte st x) s

end Sys2Proof.Machine
end

