-- ==== Sys2Proof/Machine/Medium.lean ====
section
/-! DEFINITION. The medium's commands (41_medium.md R80, R82). -/

namespace Sys2Proof.Machine

/-- MED_REGISTER s (R80). -/
def execMedRegister (st : Station) (s : State) : Host.Outcome State Fault Refusal :=
  perform (.legal (.medRegister st)) (registerEndpoint st) s

/-- MED_SEND s, b (R82). -/
def execMedSend (st : Station) (b : Bit) (s : State) : Host.Outcome State Fault Refusal :=
  perform (.legal (.medSend st b)) (sendBit st b) s

end Sys2Proof.Machine
end

