-- ==== Sys2Proof/Machine/Network.lean ====
section
/-! DEFINITION. The network port's command (45_network_system.md R123). -/

namespace Sys2Proof.Machine

/-- NET_SEND s (R123). -/
def execNetSend (st : Station) (s : State) : Host.Outcome State Fault Refusal :=
  perform (.legal (.netSend st)) (sendTestMessages st) s

end Sys2Proof.Machine
end

