-- ==== Sys2Proof/Machine/Physical.lean ====
section
/-! DEFINITION. The physical layer's commands (44_physical.md R115, R116). -/

namespace Sys2Proof.Machine

/-- PHY_SEND s, data (R115); it does not check `BOUND_s`. -/
def execPhySend (st : Station) (data : List Byte) (s : State) : Host.Outcome State Fault Refusal :=
  perform (.legal (.phySend st data)) (sendBytes st data) s

/-- PHY_RECEIVE s, b (R116). -/
def execPhyReceive (st : Station) (b : Bit) (s : State) : Host.Outcome State Fault Refusal :=
  perform (.legal (.phyReceive st b)) (receiveBit st b) s

end Sys2Proof.Machine
end

