-- ==== Sys2Proof/Machine/System.lean ====
section
/-! DEFINITION. The system commands (45_network_system.md R125, R126). -/

namespace Sys2Proof.Machine

/-- RESET (R125), taken even when halted (R127). -/
def execReset (s : State) : Host.Outcome State Fault Refusal := performAlways (fun s => .done (resetState s)) s

/-- RD_STATUS (R126), taken even when halted (R127). -/
def execRdStatus (s : State) : Host.Outcome State Fault Refusal :=
  performAlways (fun s => returnValue (.status s.status) s) s

end Sys2Proof.Machine
end

