-- ==== Sys2Proof/Machine/Dispatch.lean ====
section
/-! DEFINITION. One arm per command of the opcode map (30_encoding.md R58). -/

namespace Sys2Proof.Machine

def exec (i : Instr) (s : State) : Host.Outcome State Fault Refusal :=
  match i with
  | .reset => Sys2Proof.Machine.execReset s
  | .rdStatus => Sys2Proof.Machine.execRdStatus s
  | .medRegister st => Sys2Proof.Machine.execMedRegister st s
  | .medSend st b => Sys2Proof.Machine.execMedSend st b s
  | .phySend st data => Sys2Proof.Machine.execPhySend st data s
  | .phyReceive st b => Sys2Proof.Machine.execPhyReceive st b s
  | .dlBind st => Sys2Proof.Machine.execDlBind st s
  | .dlSend st data => Sys2Proof.Machine.execDlSend st data s
  | .dlReceive st x => Sys2Proof.Machine.execDlReceive st x s
  | .bvNew => Sys2Proof.Machine.execBvNew s
  | .bvFromBytes data first last => Sys2Proof.Machine.execBvFromBytes data first last s
  | .bvSet index v => Sys2Proof.Machine.execBvSet index v s
  | .bvGet index => Sys2Proof.Machine.execBvGet index s
  | .bvLen => Sys2Proof.Machine.execBvLen s
  | .bvToBytes => Sys2Proof.Machine.execBvToBytes s
  | .netSend st => Sys2Proof.Machine.execNetSend st s

end Sys2Proof.Machine
end

