-- ==== Sys2Proof/Machine/Sequencer.lean ====
section
/-! DEFINITION. The command sequencer (45_network_system.md R120, R121, R127, R129) and the fetch of a command from the
host's stream. -/

namespace Sys2Proof.Machine

/-- The illegal command (30_encoding.md R60): the fault `ILLEGAL_COMMAND` before any other effect; `Refused` while
halted (R127). -/
def takeIllegal (s : State) : Host.Outcome State Fault Refusal := perform .illegal (raiseFault .illegalCommand) s

/-- Takes one command of the stream (R120). Under a configuration R6 does not admit, and at a truncated command
(R59), there is no step. DEDUCED (log 8): once the stream is used up the engine "holds its state unchanged" (R129,
60_exceptions.md R143). -/
def takeCommand (s : State) : Host.Outcome State Fault Refusal :=
  if admitted s.cfg then
    match decode s.input with
    | .endOfStream => .next s
    | .truncated => .refused .truncatedCommand
    | .illegal rest => takeIllegal (s.setInput rest)
    | .command i rest => exec i (s.setInput rest)
  else .refused .configurationNotAdmitted

/-- The state with a table word's command placed at the head of the stream (log 6). -/
def placeCommand (s : State) (nbits w : Nat) : State := s.setInput (tableCommand nbits w ++ s.input)

/-- How a run ends (R129): with its final state, the trace in it, or at a step that is refused, without a final state
(R121(c)). DESIGN CHOICE (log 21): a run without a final state still has the trace of the steps before. -/
inductive RunEnd where
  | final (s : State)
  | refused (r : Refusal) (trace : List Event)
deriving DecidableEq, Repr

/-- Steps until the stream is used up or a step is refused, which ends the run with the trace so far (log 21); `fuel`
bounds the commands taken. -/
def runFor : Nat → State → RunEnd
  | 0, s => .final s
  | fuel + 1, s =>
    match s.input with
    | [] => .final s
    | _ :: _ =>
      match takeCommand s with
      | .next s' => runFor fuel s'
      | .fault _ => .final s
      | .refused r => .refused r s.trace

/-- A run (R129): the whole stream, taken from a state. Every step takes at least one byte, so the stream's length is
fuel enough. DESIGN CHOICE (log 19): under a configuration R6 does not admit the run is refused by name, like the step,
also where the stream is empty. -/
def runStream (s : State) : RunEnd :=
  if admitted s.cfg then runFor s.input.length s else .refused .configurationNotAdmitted s.trace

end Sys2Proof.Machine
end

