-- ==== Sys2Proof/Machine/Step.lean ====
section
/-! DEFINITION. One step of the machine (45_network_system.md R120). -/

namespace Sys2Proof.Machine

/-- One step: the sequencer takes the next command of the stream. -/
def step (s : State) : Host.Outcome State Fault Refusal := takeCommand s

/-- `s` with a table word's command placed where `step` takes its next command (log 6). -/
def State.withFetchWord (s : State) (nbits w : Nat) : State := placeCommand s nbits w

end Sys2Proof.Machine
end

