-- ==== Sys2Proof/Safety.lean ====
section
/-! DEFINITION. What claims are stated in terms of: running a list of instructions, reading the trace, and the
invariants of the state (10_state.md R12, R15, R17, R18, R20, R22). -/

namespace Sys2Proof.Machine

/-- Runs instructions one after another, stopping at the first that gives no next state. -/
def execAll : List Instr → State → Host.Outcome State Fault Refusal
  | [], s => .next s
  | i :: is, s =>
    match exec i s with
    | .next s' => execAll is s'
    | .fault r => .fault r
    | .refused r => .refused r

/-- Feeds bytes to station 1 with DL_RECEIVE, from power-on: the events, the fault code, and the buffer where the rules
fix it (not after a fault, 43_framing_rx.md R107). None where a command gives no next state. -/
def receiveOutcome (v : FramingVariant) (q : List Byte) : Option (List Event × Byte × Option (List Byte)) :=
  match execAll (q.map (.dlReceive .st1)) (State.powerOn (Config.ofVariants v .perfect)) with
  | .next t => some (t.trace, t.status, if t.status = 0x00 then some t.station1.rxBuf else none)
  | .fault _ => none
  | .refused _ => none

/-- A run is clean if `STATUS.FAULT = 0x00` in its final state (45_network_system.md R129). -/
def State.clean (s : State) : Bool := s.status == 0x00

/-- The payloads delivered upward, in order, each with its station (R24). -/
def deliveries (t : List Event) : List (Station × List Byte) :=
  t.filterMap fun e => match e with
    | .deliver s p => some (s, p)
    | _ => none

/-- The `Wire` events of a bit sequence that the medium delivers unaltered (41_medium.md R82, R83). -/
def cleanWires (src dst : Station) (bits : List Bit) : List Event := bits.map fun b => .wire src dst b b

/-- The other station. -/
def Station.other : Station → Station
  | .st0 => .st1
  | .st1 => .st0

/-- `r` is the receiving endpoint for a bit sent by station st (41_medium.md R81; slot 0 is compared first). -/
def PeerIs (s : State) (st r : Station) : Prop :=
  (s.slot0 = some st ∧ s.slot1 = some r) ∨ (s.slot0 ≠ some st ∧ s.slot1 = some st ∧ s.slot0 = some r)

/-- R12: slot 1 is filled only after slot 0. -/
def SlotsInOrder (s : State) : Prop := s.slot1 ≠ none → s.slot0 ≠ none

/-- R15: `-1 ≤ MED.BURST ≤ MAX_BURST - 1` between transfers. -/
def BurstInRange (s : State) : Prop := -1 ≤ s.burst.toInt ∧ s.burst.toInt ≤ (s.cfg.maxBurst : Int) - 1

/-- R18: a receive buffer holds at most `RX_BUF_MAX` bytes. -/
def RxWithinBound (s : State) : Prop := ∀ st, (s.station st).rxBuf.length ≤ s.cfg.rxBufMax

/-- R20: `STATUS.FAULT` holds 0x00 or a code of 60_exceptions.md R130. -/
def StatusLegal (s : State) : Prop := s.status = 0x00 ∨ ∃ c : FaultCode, s.status = c.code

/-- R22: the bit space is in canonical form, `BV.BITS[i] = 0` for every `i ≥ BV.LEN`, and `BV.LEN ≤ 2^31`. -/
def BvWellFormed (s : State) : Prop :=
  Memory.wf s.bv.bits ∧ (∀ i, s.bv.len ≤ i → bvRead s.bv i = false) ∧ s.bv.len ≤ bvSpaceSize

/-- What holds between commands of every run from reset. The receive-buffer part asks for `RX_BUF_MAX` of an admitted
configuration, the BV part for data a command can carry. -/
structure Inv (s : State) : Prop where
  slots : SlotsInOrder s
  burst : BurstInRange s
  rx : RxWithinBound s
  status : StatusLegal s
  bv : BvWellFormed s

end Sys2Proof.Machine
end

