-- ==== Sys2Proof/Certificates/Slice0/Obligations.lean ====
section
/-! DEFINITION. The statements for the provers. Each docstring names the rules of spec/ it comes from. An equation
`exec i s = .next { s with … }` says the result and the frame at once: every other field is as it was, the host's
inputs and the counter of free values (logs 4 and 6) among them. -/

open Sys2Proof Sys2Proof.Machine

/-! ## Reset, status, the halted gate, faults -/

/-- R125, R150: what RESET and power-on leave in every state element; the configuration and the trace stay (R150:
"unchanged by RESET", "not state; a run's trace starts empty"). -/
def Obligations.ResetAndPowerOnHoldTheResetValues : Prop :=
  (∀ s : State, ∃ t, exec .reset s = .next t ∧ t.slot0 = none ∧ t.slot1 = none ∧ t.burst = 0 ∧
    (∀ st, t.station st = { bound := false, rxShift := 0x00, rxCount := 0, rxBuf := [] }) ∧
    (∀ i, bvRead t.bv i = false) ∧ t.bv.len = 0 ∧ t.status = 0x00 ∧ t.cfg = s.cfg ∧ t.trace = s.trace) ∧
  (∀ cfg : Config, ∀ t, t = State.powerOn cfg → t.slot0 = none ∧ t.slot1 = none ∧ t.burst = 0 ∧
    (∀ st, t.station st = { bound := false, rxShift := 0x00, rxCount := 0, rxBuf := [] }) ∧
    (∀ i, bvRead t.bv i = false) ∧ t.bv.len = 0 ∧ t.status = 0x00 ∧ t.cfg = cfg ∧ t.trace = [])

/-- R126: RD_STATUS returns the fault code, halted or not, and changes nothing. -/
def Obligations.RdStatusReturnsTheFaultCode : Prop :=
  ∀ s : State, exec .rdStatus s = .next { s with trace := s.trace ++ [.result (.status s.status)] }

/-- R127 (with R20 and R133: the first fault's code stays until RESET): while halted, RESET and RD_STATUS are performed as usual; every other command, the illegal command included,
changes no state and emits only `Refused`. -/
def Obligations.HaltedEngineRefusesAllButResetAndRdStatus : Prop :=
  ∀ s : State, s.status ≠ 0x00 →
    (∀ i : Instr, i ≠ .reset → i ≠ .rdStatus →
      exec i s = .next { s with trace := s.trace ++ [.refused (.legal i)] }) ∧
    takeIllegal s = .next { s with trace := s.trace ++ [.refused .illegal] } ∧
    exec .reset s = exec .reset { s with status := 0x00 } ∧
    exec .rdStatus s = .next { s with trace := s.trace ++ [.result (.status s.status)] }

/-- R121, R131, R132, R135: a command of an engine that is not halted either ends with no fault recorded and no `Fault`
event, or has raised exactly one, whose code is in `STATUS.FAULT` and whose event is the last it emitted. -/
def Obligations.ACommandRaisesAtMostOneFault : Prop :=
  ∀ (i : Instr) (s : State), s.status = 0x00 → ∃ t es, exec i s = .next t ∧ (∀ c, Event.fault c ∉ es) ∧
    ((t.status = 0x00 ∧ t.trace = s.trace ++ es) ∨
      ∃ c : FaultCode, t.status = c.code ∧ t.trace = s.trace ++ es ++ [.fault c])

/-- R11, R16, R21: a filled slot stays filled and the configuration never changes; only MED_REGISTER writes a slot and
only DL_BIND a binding flag, RESET apart. -/
def Obligations.WiringChangesOnlyByItsCommands : Prop :=
  ∀ (i : Instr) (s t : State), exec i s = .next t →
    t.cfg = s.cfg ∧
    (i ≠ .reset → (∀ a, s.slot0 = some a → t.slot0 = some a) ∧ (∀ a, s.slot1 = some a → t.slot1 = some a)) ∧
    (i ≠ .reset → (∀ st, i ≠ .medRegister st) → t.slot0 = s.slot0 ∧ t.slot1 = s.slot1) ∧
    (i ≠ .reset → (∀ st, i ≠ .dlBind st) → ∀ a, (t.station a).bound = (s.station a).bound)

/-- R130 with R20: distinct causes have distinct codes, none of them 0x00, and they are the codes of the table. -/
def Obligations.FaultCodesAreThoseOfTheTable : Prop :=
  FaultCode.all.map FaultCode.code = [0x01, 0x10, 0x11, 0x12, 0x13, 0x14, 0x15, 0x20, 0x30, 0x40, 0x41] ∧
  (∀ c, c ∈ FaultCode.all) ∧ ∀ c d : FaultCode, c.code = d.code → c = d

/-! ## Invariants -/

/-- R12, R15, R18, R20, R22 hold at power-on with every admitted configuration. -/
def Obligations.PowerOnSatisfiesTheInvariant : Prop :=
  ∀ cfg : Config, admitted cfg = true → Inv (State.powerOn cfg)

/-- R12, R15, R18, R20, R22: every step keeps the invariant, from every state that meets it. -/
def Obligations.EveryStepKeepsTheInvariant : Prop :=
  ∀ s t : State, Inv s → step s = .next t → Inv t

/-! ## The medium -/

/-- R80: MED_REGISTER. -/
def Obligations.MedRegisterFillsTheFirstFreeSlot : Prop :=
  ∀ (st : Station) (s : State), s.status = 0x00 →
    (s.slot0 = none → exec (.medRegister st) s = .next { s with slot0 := some st }) ∧
    (s.slot0 ≠ none → s.slot1 = none → exec (.medRegister st) s = .next { s with slot1 := some st }) ∧
    (s.slot0 ≠ none → s.slot1 ≠ none → exec (.medRegister st) s =
      .next { s with status := 0x10, trace := s.trace ++ [.fault .cfgMediumFull] })

/-- R81 (the two faults of MED_SEND): a sender in neither slot, and a sender whose other slot is empty; the burst
counter does not move and no draw is taken. -/
def Obligations.MedSendFaultsWithoutSenderOrPeer : Prop :=
  ∀ (st : Station) (b : Bit) (s : State), s.status = 0x00 →
    (s.slot0 ≠ some st → s.slot1 ≠ some st → exec (.medSend st b) s =
      .next { s with status := 0x11, trace := s.trace ++ [.fault .cfgSenderUnregistered] }) ∧
    ((s.slot0 = some st ∧ s.slot1 = none) ∨ (s.slot0 = none ∧ s.slot1 = some st) →
      exec (.medSend st b) s = .next { s with status := 0x12, trace := s.trace ++ [.fault .cfgNoPeer] })

/-- R82, R83: MED_SEND over the perfect medium is `Wire` and PHY_RECEIVE of the same bit at the peer; with fewer than 7
bits there before, it ends with the bit shifted in. -/
def Obligations.MedSendOverThePerfectMedium : Prop :=
  ∀ (st r : Station) (b : Bit) (s : State), s.status = 0x00 → s.cfg.medium = .perfect → PeerIs s st r →
    exec (.medSend st b) s = exec (.phyReceive r b) (s.emit (.wire st r b b)) ∧
    ((s.station r).rxCount.toNat < 7 → exec (.medSend st b) s =
      .next ((s.emit (.wire st r b b)).setDeserializer r (shiftIn (s.station r).rxShift b) ((s.station r).rxCount + 1)))

/-- R82, R84: MED_SEND over the noisy medium, for every value of the draw it takes: the delivered bit, the counter, then
`Wire` and PHY_RECEIVE at the peer; with fewer than 7 bits there before, it ends with the delivered bit shifted in. -/
def Obligations.MedSendOverTheNoisyMedium : Prop :=
  ∀ (st r : Station) (b v : Bit) (c : BitVec 8) (s : State), s.status = 0x00 → s.cfg.medium = .noisy → PeerIs s st r →
    (0 < s.burst.toInt ∨ (s.burst = 0 ∧ s.nextDraw.startHit = true) →
      v = (b ^^ s.nextDraw.flipHit) ∧ c = if (s.burst + 1).toInt = s.cfg.maxBurst then -1 else s.burst + 1) →
    (¬ (0 < s.burst.toInt ∨ (s.burst = 0 ∧ s.nextDraw.startHit = true)) → v = b ∧ c = 0) →
    exec (.medSend st b) s = exec (.phyReceive r v) ((s.takeDraw.setBurst c).emit (.wire st r b v)) ∧
    ((s.station r).rxCount.toNat < 7 → exec (.medSend st b) s =
      .next (((s.takeDraw.setBurst c).emit (.wire st r b v)).setDeserializer r (shiftIn (s.station r).rxShift v)
        ((s.station r).rxCount + 1)))

/-- R85: the transition table of the burst counter, for every admitted `MAX_BURST`. -/
def Obligations.BurstTransitionTable : Prop :=
  ∀ (m : Nat) (d : Draw) (b : Bit), 1 ≤ m → m ≤ 127 →
    (inBurst (-1) d = false ∧ noisyBit (-1) d b = b ∧ burstNext m (-1) d = 0) ∧
    (d.startHit = false → inBurst 0 d = false ∧ noisyBit 0 d b = b ∧ burstNext m 0 d = 0) ∧
    (d.startHit = true → inBurst 0 d = true ∧ noisyBit 0 d b = (b ^^ d.flipHit) ∧
      (burstNext m 0 d).toInt = if m > 1 then 1 else -1) ∧
    (∀ c : BitVec 8, 1 ≤ c.toInt → c.toInt ≤ (m : Int) - 2 →
      inBurst c d = true ∧ noisyBit c d b = (b ^^ d.flipHit) ∧ (burstNext m c d).toInt = c.toInt + 1) ∧
    (∀ c : BitVec 8, 1 ≤ c.toInt → c.toInt = (m : Int) - 1 →
      inBurst c d = true ∧ noisyBit c d b = (b ^^ d.flipHit) ∧ burstNext m c d = -1)

/-- R87(a), (c), (e): a burst that starts covers exactly `MAX_BURST` transfers, whatever their draws, all of them in the
burst; the transfer right after it is not in a burst, delivers its bit unchanged, and leaves the counter idle. -/
def Obligations.ABurstCoversExactlyMaxBurstTransfers : Prop :=
  ∀ (m : Nat) (d : Draw) (ds : List Draw), 1 ≤ m → m ≤ 127 → d.startHit = true → ds.length + 1 = m →
    (d :: ds).foldl (burstNext m) 0 = -1 ∧
    (∀ p q : List Draw, ∀ e : Draw, d :: ds = p ++ e :: q → inBurst (p.foldl (burstNext m) 0) e = true) ∧
    (∀ e : Draw, ∀ b : Bit, inBurst (-1) e = false ∧ noisyBit (-1) e b = b ∧ burstNext m (-1) e = 0)

/-- R13, R83: over the perfect medium no command but RESET changes `MED.BURST`, and none takes a draw. -/
def Obligations.PerfectMediumHoldsNoBurstState : Prop :=
  ∀ (i : Instr) (s t : State), s.cfg.medium = .perfect → i ≠ .reset → exec i s = .next t →
    t.burst = s.burst ∧ t.draws = s.draws

/-- R89: the worked trace, as six MED_SENDs of the bit 1 with the draws of its table: the counter before each transfer,
whether it is in a burst, what it delivers, and the counter after it. -/
def Obligations.WorkedBurstTraceOfR89 : Prop :=
  let ds : List Draw := [⟨false, true⟩, ⟨true, false⟩, ⟨false, true⟩, ⟨false, false⟩, ⟨true, true⟩, ⟨true, true⟩]
  let s : State := { State.powerOn { Config.ofVariants .parity .noisy with maxBurst := 3 } with
    slot0 := some .st0, slot1 := some .st1, draws := ds }
  (List.range 6).map (fun k =>
      match execAll (List.replicate k (.medSend .st0 true)) s with
      | .next u =>
        match exec (.medSend .st0 true) u with
        | .next t => some (u.burst.toInt, inBurst u.burst u.nextDraw, t.trace.getLast?, t.burst.toInt)
        | _ => none
      | _ => none) =
    [some (0, false, some (.wire .st0 .st1 true true), 0), some (0, true, some (.wire .st0 .st1 true true), 1),
      some (1, true, some (.wire .st0 .st1 true false), 2), some (2, true, some (.wire .st0 .st1 true true), -1),
      some (-1, false, some (.wire .st0 .st1 true true), 0), some (0, true, some (.wire .st0 .st1 true false), 1)]

/-! ## The physical layer -/

/-- R116: PHY_RECEIVE: a bit before the 8th is shifted in; the 8th clears the deserializer, faults at a station without
a client, and is DL_RECEIVE of the byte at a station with one. -/
def Obligations.PhyReceiveShiftsBitsIntoBytes : Prop :=
  ∀ (st : Station) (b : Bit) (s : State), s.status = 0x00 →
    ((s.station st).rxCount.toNat < 7 → exec (.phyReceive st b) s =
      .next (s.setDeserializer st (shiftIn (s.station st).rxShift b) ((s.station st).rxCount + 1))) ∧
    ((s.station st).rxCount = 7 → (s.station st).bound = false → exec (.phyReceive st b) s =
      .next { s.setDeserializer st 0x00 0 with status := 0x15, trace := s.trace ++ [.fault .cfgNoClient] }) ∧
    ((s.station st).rxCount = 7 → (s.station st).bound = true → exec (.phyReceive st b) s =
      exec (.dlReceive st (shiftIn (s.station st).rxShift b)) (s.setDeserializer st 0x00 0))

/-- R50, R116: from a byte boundary, the eight bits of a byte, MSB first, are DL_RECEIVE of that byte. -/
def Obligations.EightBitsMsbFirstAreOneByte : Prop :=
  ∀ (st : Station) (x : Byte) (s : State), s.status = 0x00 → (s.station st).rxCount = 0 →
    (s.station st).bound = true →
    execAll ((bitsMsbFirst x).map (.phyReceive st)) s = exec (.dlReceive st x) (s.setDeserializer st 0x00 0)

/-- R36, R157: every bit received moves the byte boundary by one, modulo 8, whatever the bit and whether a byte or a
frame completes or faults: the deserializer never resynchronizes. -/
def Obligations.EveryReceivedBitMovesTheByteBoundaryByOne : Prop :=
  ∀ (st : Station) (b : Bit) (s t : State), s.status = 0x00 → exec (.phyReceive st b) s = .next t →
    (t.station st).rxCount = (s.station st).rxCount + 1

/-- R115: PHY_SEND is the MED_SENDs of its bits, byte after byte, MSB first, stopped at the first fault. -/
def Obligations.PhySendIsItsMedSendsUpToTheFirstFault : Prop :=
  ∀ (st : Station) (data : List Byte) (s : State), s.status = 0x00 →
    (∀ t, execAll ((data.flatMap bitsMsbFirst).map (.medSend st)) s = .next t → t.status = 0x00 →
      exec (.phySend st data) s = .next t) ∧
    (∀ p q b t u, data.flatMap bitsMsbFirst = p ++ b :: q → execAll (p.map (.medSend st)) s = .next t →
      t.status = 0x00 → exec (.medSend st b) t = .next u → u.status ≠ 0x00 → exec (.phySend st data) s = .next u)

/-- R117 (perfect medium): a byte sent to a wired peer at a byte boundary is its eight `Wire` events and then exactly
DL_RECEIVE of that byte at the peer. -/
def Obligations.AByteCrossesThePerfectMedium : Prop :=
  ∀ (st r : Station) (x : Byte) (s : State), s.status = 0x00 → s.cfg.medium = .perfect → PeerIs s st r →
    (s.station r).rxCount = 0 → (s.station r).bound = true →
    exec (.phySend st [x]) s = exec (.dlReceive r x)
      (State.setDeserializer { s with trace := s.trace ++ cleanWires st r (bitsMsbFirst x) } r 0x00 0)

/-- R115, R117, R100: bytes without a STOP that fit the peer's buffer all arrive there, in order, and PHY_SEND ends
without a fault; nothing but the peer's receive side and the trace changes. -/
def Obligations.PhySendFillsThePeersBuffer : Prop :=
  ∀ (st r : Station) (q : List Byte) (s : State), s.status = 0x00 → s.cfg.medium = .perfect → PeerIs s st r →
    (s.station r).rxCount = 0 → (s.station r).bound = true → s.cfg.stop ∉ q →
    (s.station r).rxBuf.length + q.length ≤ s.cfg.rxBufMax →
    ∃ t, exec (.phySend st q) s = .next t ∧ t.status = 0x00 ∧ (t.station r).rxBuf = (s.station r).rxBuf ++ q ∧
      (t.station r).rxCount = 0 ∧ (t.station r).bound = true ∧
      t.trace = s.trace ++ cleanWires st r (q.flatMap bitsMsbFirst) ∧
      (∀ a, a ≠ r → t.station a = s.station a) ∧ t.slot0 = s.slot0 ∧ t.slot1 = s.slot1 ∧ t.burst = s.burst ∧
      t.bv = s.bv ∧ t.cfg = s.cfg

/-! ## Framing -/

/-- R46, R47, R48: the frame formats, byte stuffing, and the check byte: the number of 1 bits of the unstuffed chunk,
modulo 2, as a byte. -/
def Obligations.FrameFormats : Prop :=
  ∀ cfg : Config, stuff cfg [] = [] ∧
    (∀ b c, stuff cfg (b :: c) =
      (if b = cfg.start ∨ b = cfg.stop ∨ b = cfg.esc then [cfg.esc, b] else [b]) ++ stuff cfg c) ∧
    (∀ c, cfg.framing = .simple → frame cfg c = [cfg.start] ++ stuff cfg c ++ [cfg.stop]) ∧
    (∀ c, cfg.framing = .parity → frame cfg c = [cfg.start] ++ stuff cfg c ++ [checkByte c] ++ [cfg.stop]) ∧
    (∀ c, checkByte c = BitVec.ofNat 8 ((c.flatMap bitsMsbFirst).count true % 2))

/-- R49: frame lengths; with `MAX_PAYLOAD = 8` a PARITY frame of a chunk is 3 to 19 bytes. -/
def Obligations.FrameLengths : Prop :=
  ∀ (cfg : Config) (c : List Byte),
    (cfg.framing = .simple → (frame cfg c).length = c.length + c.countP (isMarker cfg) + 2) ∧
    (cfg.framing = .parity → (frame cfg c).length = c.length + c.countP (isMarker cfg) + 3) ∧
    (cfg.framing = .parity → cfg.maxPayload = some 8 → ∀ data, c ∈ chunks cfg data →
      3 ≤ (frame cfg c).length ∧ (frame cfg c).length ≤ 19)

/-- R90: chunking: one chunk for SIMPLE; for PARITY `ceil(n/m)` chunks whose concatenation is the buffer, every one
full but the last, which has the rest. -/
def Obligations.ChunksPartitionTheBuffer : Prop :=
  ∀ (cfg : Config) (data : List Byte), data ≠ [] →
    (cfg.framing = .simple → chunks cfg data = [data]) ∧
    (∀ m : ℕ+, cfg.framing = .parity → cfg.maxPayload = some m →
      (chunks cfg data).flatten = data ∧ (chunks cfg data).length = (data.length + m - 1) / m ∧
      (∀ k, k + 1 < (chunks cfg data).length → ((chunks cfg data).getD k []).length = m) ∧
      ((chunks cfg data).getLastD []).length = data.length - m * ((chunks cfg data).length - 1) ∧
      1 ≤ ((chunks cfg data).getLastD []).length ∧ ((chunks cfg data).getLastD []).length ≤ m)

/-- R92: an empty send buffer sends nothing, or one frame with an empty payload where the parameter says so. -/
def Obligations.AnEmptyBufferSendsNothingUnlessConfigured : Prop :=
  (∀ cfg : Config, (cfg.emptySendEmitsFrame = false → chunks cfg [] = []) ∧
    (cfg.emptySendEmitsFrame = true → chunks cfg [] = [[]]) ∧
    (cfg.framing = .simple → frame cfg [] = [cfg.start, cfg.stop]) ∧
    (cfg.framing = .parity → frame cfg [] = [cfg.start, 0x00, cfg.stop])) ∧
  (∀ (st : Station) (s : State), s.status = 0x00 → (s.station st).bound = true →
    s.cfg.emptySendEmitsFrame = false → exec (.dlSend st []) s = .next s)

/-- R104 and R95: the walk runs over the bytes from index 1 up to the boundary; an ESC makes the next byte literal and an
ESC with none after it is discarded, every other byte, an unescaped START or STOP included, is literal; and over a
stuffed chunk it gives back the chunk: what stuffing inserted, and nothing else, is taken out. -/
def Obligations.UnstuffingUndoesStuffing : Prop :=
  ∀ cfg : Config,
    (∀ q n, extract cfg q n = unstuff cfg.esc ((q.take n).drop 1)) ∧
    unstuff cfg.esc [] = [] ∧ unstuff cfg.esc [cfg.esc] = [] ∧
    (∀ x rest, unstuff cfg.esc (cfg.esc :: x :: rest) = x :: unstuff cfg.esc rest) ∧
    (∀ b rest, b ≠ cfg.esc → unstuff cfg.esc (b :: rest) = b :: unstuff cfg.esc rest) ∧
    (∀ c rest, unstuff cfg.esc (stuff cfg c ++ rest) = c ++ unstuff cfg.esc rest) ∧
    ∀ c, unstuff cfg.esc (stuff cfg c) = c

/-- R94: DL_SEND faults at an unbound station before anything is sent; at a bound one it is PHY_SEND of the frames of
its chunks, in chunk order, over either medium. -/
def Obligations.DlSendIsPhySendOfTheFrames : Prop :=
  ∀ (st : Station) (data : List Byte) (s : State), s.status = 0x00 →
    ((s.station st).bound = false → exec (.dlSend st data) s =
      .next { s with status := 0x13, trace := s.trace ++ [.fault .cfgNoPhy] }) ∧
    ((s.station st).bound = true → exec (.dlSend st data) s =
      exec (.phySend st ((chunks s.cfg data).flatMap (frame s.cfg))) s)

/-- R100, R101: a byte that does not complete a frame is appended to the buffer, and nothing else changes. -/
def Obligations.DlReceiveKeepsBytesUntilAFrameCompletes : Prop :=
  ∀ (st : Station) (x : Byte) (s : State), s.status = 0x00 → (s.station st).rxBuf.length ≠ s.cfg.rxBufMax →
    (x ≠ s.cfg.stop ∨ (s.station st).rxBuf = [] ∨ (s.station st).rxBuf.getLast? = some s.cfg.esc) →
    exec (.dlReceive st x) s = .next (s.setRxBuf st ((s.station st).rxBuf ++ [x]))

/-- R108: a byte at a full buffer faults and is not appended; a STOP at a buffer one byte short of full is still
processed (it does not overflow). -/
def Obligations.DlReceiveOverflowsOnlyAtAFullBuffer : Prop :=
  ∀ (st : Station) (x : Byte) (s : State), s.status = 0x00 →
    ((s.station st).rxBuf.length = s.cfg.rxBufMax → exec (.dlReceive st x) s =
      .next { s with status := 0x30, trace := s.trace ++ [.fault .capacityRxOverflow] }) ∧
    (∀ t, (s.station st).rxBuf.length < s.cfg.rxBufMax → exec (.dlReceive st x) s = .next t →
      t.status ≠ 0x30 ∧ (t.station st).rxBuf.length ≤ s.cfg.rxBufMax)

/-- R103: a complete buffer whose byte 0 is not START: the diagnostic, the fault, no payload; nothing else changes but
the buffer itself, of which only the bound of R18 is known (R107, log 5), and the counter of free values. -/
def Obligations.ABadStartByteIsAFault : Prop :=
  ∀ (st : Station) (b0 : Byte) (rest : List Byte) (s : State), s.status = 0x00 →
    (s.station st).rxBuf = b0 :: rest → (b0 :: rest).length ≠ s.cfg.rxBufMax →
    (b0 :: rest).getLast? ≠ some s.cfg.esc → b0 ≠ s.cfg.start →
    ∃ t q, exec (.dlReceive st s.cfg.stop) s = .next t ∧ q.length ≤ s.cfg.rxBufMax ∧
      t = { s.setRxBuf st q with
        status := 0x20, freeCount := s.freeCount + 1
        trace := s.trace ++ [.diag (.framingError st b0), .fault .framingBadStart] }

/-- R105 with R104 and R107: in SIMPLE a complete buffer that begins with START is unstuffed and delivered, an empty
payload too, and the buffer is cleared. -/
def Obligations.SimpleFramesAreDelivered : Prop :=
  ∀ (st : Station) (body : List Byte) (s : State), s.status = 0x00 → s.cfg.framing = .simple →
    (s.station st).rxBuf = s.cfg.start :: body → (s.cfg.start :: body).length ≠ s.cfg.rxBufMax →
    (s.cfg.start :: body).getLast? ≠ some s.cfg.esc →
    exec (.dlReceive st s.cfg.stop) s =
      .next { s.setRxBuf st [] with trace := s.trace ++ [.deliver st (unstuff s.cfg.esc body)] }

/-- R106 with R104 and R107: in PARITY the received check byte is compared, all 8 bits, with that of the unstuffed
payload: delivered, or dropped with the diagnostic, which is no fault; the two-byte buffer is always dropped. -/
def Obligations.ParityFramesAreDeliveredOrDropped : Prop :=
  ∀ (st : Station) (s : State), s.status = 0x00 → s.cfg.framing = .parity → admitted s.cfg = true →
    (∀ body rc, (s.station st).rxBuf = s.cfg.start :: body ++ [rc] → rc ≠ s.cfg.esc →
      body.length + 2 ≠ s.cfg.rxBufMax →
      exec (.dlReceive st s.cfg.stop) s = .next { s.setRxBuf st [] with trace := s.trace ++
        [if rc = checkByte (unstuff s.cfg.esc body) then .deliver st (unstuff s.cfg.esc body)
          else .diag (.parityMismatch st (unstuff s.cfg.esc body) rc (checkByte (unstuff s.cfg.esc body)))] }) ∧
    ((s.station st).rxBuf = [s.cfg.start] → exec (.dlReceive st s.cfg.stop) s =
      .next { s.setRxBuf st [] with trace := s.trace ++ [.diag (.parityMismatch st [] s.cfg.start 0x00)] })

/-- R111: the worked receive cases, fed byte by byte with DL_RECEIVE at station 1: the events, the fault code, and the
buffer where the rules fix it (not after the fault, R107). -/
def Obligations.WorkedReceiveCasesOfR111 : Prop :=
  receiveOutcome .parity [0x7B, 0x61, 0x62, 0x63, 0x00, 0x7D] = some ([.deliver .st1 [0x61, 0x62, 0x63]], 0x00, some []) ∧
  receiveOutcome .parity [0x7B, 0x5C, 0x7B, 0x5C, 0x7D, 0x00, 0x7D] = some ([.deliver .st1 [0x7B, 0x7D]], 0x00, some []) ∧
  receiveOutcome .parity [0x7B, 0x5C, 0x5C, 0x00, 0x7D] = some ([.deliver .st1 [0x5C]], 0x00, some []) ∧
  receiveOutcome .parity [0x7B, 0x00, 0x7D] = some ([.deliver .st1 []], 0x00, some []) ∧
  receiveOutcome .parity [0x7B, 0x7D] = some ([.diag (.parityMismatch .st1 [] 0x7B 0x00)], 0x00, some []) ∧
  receiveOutcome .parity [0x7B, 0x41, 0x01, 0x7D] = some ([.diag (.parityMismatch .st1 [0x41] 0x01 0x00)], 0x00, some []) ∧
  receiveOutcome .parity [0x7B, 0x41, 0x80, 0x7D] = some ([.diag (.parityMismatch .st1 [0x41] 0x80 0x00)], 0x00, some []) ∧
  receiveOutcome .parity [0x7B, 0x5C, 0x01, 0x7D] = some ([.diag (.parityMismatch .st1 [] 0x01 0x00)], 0x00, some []) ∧
  receiveOutcome .parity [0x41, 0x42, 0x00, 0x7D] =
    some ([.diag (.framingError .st1 0x41), .fault .framingBadStart], 0x20, none) ∧
  receiveOutcome .simple [0x7B, 0x61, 0x62, 0x63, 0x7D] = some ([.deliver .st1 [0x61, 0x62, 0x63]], 0x00, some []) ∧
  receiveOutcome .simple [0x7B, 0x5C, 0x7B, 0x5C, 0x7D, 0x7D] = some ([.deliver .st1 [0x7B, 0x7D]], 0x00, some []) ∧
  receiveOutcome .simple [0x7B, 0x7D] = some ([.deliver .st1 []], 0x00, some []) ∧
  receiveOutcome .simple [0x7B, 0x61, 0x5C, 0x5C, 0x7D] = some ([], 0x00, some [0x7B, 0x61, 0x5C, 0x5C, 0x7D])

/-- R109: the round trip. Over a perfect medium, to a wired peer whose buffer is empty and which stands at a byte
boundary, DL_SEND ends without a fault and the peer delivers exactly the chunks of the buffer, in order; in SIMPLE for
every buffer that does not end in ESC. The peer is then ready for the next buffer. -/
def Obligations.DlSendRoundTripsOverThePerfectMedium : Prop :=
  ∀ (st r : Station) (data : List Byte) (s : State), s.status = 0x00 → admitted s.cfg = true →
    s.cfg.medium = .perfect → PeerIs s st r → (s.station st).bound = true → (s.station r).bound = true →
    (s.station r).rxBuf = [] → (s.station r).rxCount = 0 →
    (∀ c ∈ chunks s.cfg data, (frame s.cfg c).length ≤ s.cfg.rxBufMax) →
    (s.cfg.framing = .simple → data.getLast? ≠ some s.cfg.esc) →
    ∃ t, exec (.dlSend st data) s = .next t ∧ t.status = 0x00 ∧
      t.trace = s.trace ++ (chunks s.cfg data).flatMap (fun c =>
        cleanWires st r ((frame s.cfg c).flatMap bitsMsbFirst) ++ [.deliver r c]) ∧
      (chunks s.cfg data).flatten = data ∧
      (t.station r).rxBuf = [] ∧ (t.station r).rxCount = 0 ∧ (t.station r).bound = true ∧
      (∀ a, a ≠ r → t.station a = s.station a) ∧ t.slot0 = s.slot0 ∧ t.slot1 = s.slot1 ∧ t.burst = s.burst ∧
      t.bv = s.bv ∧ t.cfg = s.cfg

/-- R154: in SIMPLE a payload that ends in ESC is not delivered: its whole frame stays in the peer's buffer, and
nothing is reported. -/
def Obligations.ASimplePayloadEndingInEscIsNotDelivered : Prop :=
  ∀ (st r : Station) (c : List Byte) (s : State), s.status = 0x00 → admitted s.cfg = true →
    s.cfg.framing = .simple → s.cfg.medium = .perfect → PeerIs s st r → (s.station st).bound = true →
    (s.station r).bound = true → (s.station r).rxBuf = [] → (s.station r).rxCount = 0 →
    c.getLast? = some s.cfg.esc → (frame s.cfg c).length ≤ s.cfg.rxBufMax →
    ∃ t, exec (.dlSend st c) s = .next t ∧ t.status = 0x00 ∧ (t.station r).rxBuf = frame s.cfg c ∧
      t.trace = s.trace ++ cleanWires st r ((frame s.cfg c).flatMap bitsMsbFirst)

/-- R110(a): a PARITY frame with one bit of its stuffed payload flipped, fed to a receiver that starts clean: if the
flip completes no earlier frame, the frame is dropped with a `PARITY_MISMATCH` and nothing is delivered, the flip that
makes an ESC included (with an ESC of even popcount, as 0x5C is). `k` is the byte's place in the frame. -/
def Obligations.ASingleFlippedPayloadBitIsDetected : Prop :=
  ∀ (st : Station) (c q : List Byte) (k j : Nat) (s : State), s.status = 0x00 → admitted s.cfg = true →
    s.cfg.framing = .parity → popcount s.cfg.esc % 2 = 0 → (s.station st).rxBuf = [] →
    (frame s.cfg c).length ≤ s.cfg.rxBufMax → 1 ≤ k → k + 2 < (frame s.cfg c).length → j < 8 →
    q = (frame s.cfg c).set k ((frame s.cfg c).getD k 0x00 ^^^ (1#8 <<< j)) →
    (∀ n, n < q.length → complete s.cfg (q.take n) = false) →
    ∃ p rc cc, rc ≠ cc ∧ execAll (q.map (.dlReceive st)) s =
      .next { s with trace := s.trace ++ [.diag (.parityMismatch st p rc cc)] }

/-! ## Wiring and the network port -/

/-- R122: DL_BIND. -/
def Obligations.DlBindBindsOnce : Prop :=
  ∀ (st : Station) (s : State), s.status = 0x00 →
    ((s.station st).bound = false → exec (.dlBind st) s = .next (s.setStation st { s.station st with bound := true })) ∧
    ((s.station st).bound = true → exec (.dlBind st) s =
      .next { s with status := 0x14, trace := s.trace ++ [.fault .cfgClientAlready] })

/-- R152, R63: BOOT, from any state, wires both stations and leaves every other element at its reset value. -/
def Obligations.BootWiresBothStations : Prop :=
  ∀ s : State, ∃ t, execAll boot s = .next t ∧ t.slot0 = some .st0 ∧ t.slot1 = some .st1 ∧ t.burst = 0 ∧
    (∀ st, t.station st = { bound := true, rxShift := 0x00, rxCount := 0, rxBuf := [] }) ∧
    t.bv = { bits := [], len := 0 } ∧ t.status = 0x00 ∧ t.trace = s.trace ∧ t.cfg = s.cfg

/-- R123: NET_SEND is the DL_SENDs of the test messages, in list order, stopped at the first fault. -/
def Obligations.NetSendIsItsDlSendsUpToTheFirstFault : Prop :=
  ∀ (st : Station) (s : State), s.status = 0x00 →
    (∀ t, execAll (s.cfg.testMessages.map (.dlSend st)) s = .next t → t.status = 0x00 →
      exec (.netSend st) s = .next t) ∧
    (∀ p q m t u, s.cfg.testMessages = p ++ m :: q → execAll (p.map (.dlSend st)) s = .next t → t.status = 0x00 →
      exec (.dlSend st m) t = .next u → u.status ≠ 0x00 → exec (.netSend st) s = .next u)

/-- R123 with R109: over a perfect PARITY link NET_SEND ends without a fault, and the peer delivers the chunks of every
test message, in list order. -/
def Obligations.NetSendDeliversTheTestMessages : Prop :=
  ∀ (st r : Station) (s : State), s.status = 0x00 → admitted s.cfg = true → s.cfg.framing = .parity →
    s.cfg.medium = .perfect → PeerIs s st r → (s.station st).bound = true → (s.station r).bound = true →
    (s.station r).rxBuf = [] → (s.station r).rxCount = 0 →
    (∀ m ∈ s.cfg.testMessages, ∀ c ∈ chunks s.cfg m, (frame s.cfg c).length ≤ s.cfg.rxBufMax) →
    ∃ t, exec (.netSend st) s = .next t ∧ t.status = 0x00 ∧
      deliveries t.trace = deliveries s.trace ++
        (s.cfg.testMessages.flatMap (chunks s.cfg)).map (fun c => (r, c))

/-- R94, R142: the sending commands change no station but the receiving one; PHY_RECEIVE and DL_RECEIVE change no other
station, no burst counter and no draw, and DL_RECEIVE leaves the deserializer alone. -/
def Obligations.LinkCommandsChangeOnlyTheReceivingStation : Prop :=
  ∀ (i : Instr) (st : Station) (s t : State),
    ((∃ b, i = .medSend st b) ∨ (∃ q, i = .phySend st q) ∨ (∃ q, i = .dlSend st q) ∨ i = .netSend st →
      exec i s = .next t → ∀ a, ¬ PeerIs s st a → t.station a = s.station a) ∧
    ((∃ b, i = .phyReceive st b) ∨ (∃ x, i = .dlReceive st x) → exec i s = .next t →
      (∀ a, a ≠ st → t.station a = s.station a) ∧ t.burst = s.burst ∧ t.draws = s.draws) ∧
    (∀ x, i = .dlReceive st x → exec i s = .next t →
      (t.station st).rxShift = (s.station st).rxShift ∧ (t.station st).rxCount = (s.station st).rxCount)

/-! ## The bit vector unit -/

/-- R70: BV_NEW. -/
def Obligations.BvNewMakesTheVectorEmpty : Prop :=
  ∀ s : State, s.status = 0x00 → ∃ u, exec .bvNew s = .next { s with bv := u } ∧ u.len = 0 ∧ ∀ i, bvRead u i = false

/-- R71: BV_FROM_BYTES: the range check first, then the bits of the range, MSB first per byte, and no others. -/
def Obligations.BvFromBytesLoadsTheRange : Prop :=
  ∀ (data : List Byte) (b e : BitVec 32) (s : State), s.status = 0x00 →
    (¬ (0 ≤ b.toInt ∧ b.toInt ≤ e.toInt ∧ e.toInt ≤ data.length) → exec (.bvFromBytes data b e) s =
      .next { s with status := 0x41, trace := s.trace ++ [.fault .bvBadRange] }) ∧
    (0 ≤ b.toInt ∧ b.toInt ≤ e.toInt ∧ e.toInt ≤ data.length →
      ∃ u, exec (.bvFromBytes data b e) s = .next { s with bv := u } ∧
        (u.len : Int) = 8 * (e.toInt - b.toInt) ∧
        (∀ k j : Nat, (k : Int) < e.toInt - b.toInt → j < 8 →
          bvRead u (8 * k + j) = (data.getD (b.toInt.toNat + k) 0x00).getLsbD (7 - j)) ∧
        ∀ i, u.len ≤ i → bvRead u i = false)

/-- R72: BV_SET: the bit at the index, the known length, and every other bit as it was. -/
def Obligations.BvSetWritesOneBit : Prop :=
  ∀ (index : BitVec 32) (v : Bit) (s : State), s.status = 0x00 →
    (index.toInt < 0 → exec (.bvSet index v) s =
      .next { s with status := 0x40, trace := s.trace ++ [.fault .bvNegIndex] }) ∧
    (0 ≤ index.toInt → ∃ u, exec (.bvSet index v) s = .next { s with bv := u } ∧
      u.len = max s.bv.len (index.toInt.toNat + 1) ∧ bvRead u index.toInt.toNat = v ∧
      ∀ i, i ≠ index.toInt.toNat → bvRead u i = bvRead s.bv i)

/-- R73: BV_GET: the bit at the index, 0 at or beyond the known length of a well-formed unit (R22), and no change. -/
def Obligations.BvGetReadsOneBit : Prop :=
  ∀ (index : BitVec 32) (s : State), s.status = 0x00 →
    (index.toInt < 0 → exec (.bvGet index) s =
      .next { s with status := 0x40, trace := s.trace ++ [.fault .bvNegIndex] }) ∧
    (0 ≤ index.toInt → exec (.bvGet index) s =
      .next { s with trace := s.trace ++ [.result (.bit (bvRead s.bv index.toInt.toNat))] }) ∧
    (BvWellFormed s → (s.bv.len : Int) ≤ index.toInt →
      exec (.bvGet index) s = .next { s with trace := s.trace ++ [.result (.bit false)] })

/-- R74: BV_LEN returns the known length and changes nothing. -/
def Obligations.BvLenReturnsTheKnownLength : Prop :=
  ∀ s : State, s.status = 0x00 → exec .bvLen s = .next { s with trace := s.trace ++ [.result (.length s.bv.len)] }

/-- R75: BV_TO_BYTES returns `ceil(LEN/8)` bytes whose bits below the known length are the vector's, MSB first, and
whose other bits are 0; it changes nothing. -/
def Obligations.BvToBytesExportsTheVector : Prop :=
  ∀ s : State, s.status = 0x00 → ∃ q : List Byte,
    exec .bvToBytes s = .next { s with trace := s.trace ++ [.result (.bytes q)] } ∧
    q.length = (s.bv.len + 7) / 8 ∧
    ∀ k j, k < q.length → j < 8 →
      (q.getD k 0x00).getLsbD (7 - j) = (decide (8 * k + j < s.bv.len) && bvRead s.bv (8 * k + j))

/-- R76(a): loading a byte sequence and exporting the vector returns the sequence. -/
def Obligations.BvBytesRoundTrip : Prop :=
  ∀ (q : List Byte) (s : State), s.status = 0x00 → q.length < 2 ^ 31 →
    ∃ t, execAll [.bvFromBytes q 0 (BitVec.ofNat 32 q.length), .bvToBytes] s = .next t ∧
      t.trace = s.trace ++ [.result (.bytes q)]

/-- R77: only BV_NEW, BV_FROM_BYTES and RESET can make the known length smaller, and BV_GET, BV_LEN and BV_TO_BYTES
never change it. -/
def Obligations.KnownLengthFallsOnlyOnExplicitReset : Prop :=
  ∀ (i : Instr) (s t : State), exec i s = .next t →
    (i ≠ .bvNew → (∀ d b e, i ≠ .bvFromBytes d b e) → i ≠ .reset → s.bv.len ≤ t.bv.len) ∧
    ((∃ n, i = .bvGet n) ∨ i = .bvLen ∨ i = .bvToBytes → t.bv.len = s.bv.len)

/-- R30, R31: a command that is not one of the writers of the bit vector unit leaves every bit of it as it was. -/
def Obligations.OtherCommandsLeaveTheBitSpaceAlone : Prop :=
  ∀ (i : Instr) (s t : State), i ≠ .reset → i ≠ .bvNew → (∀ d b e, i ≠ .bvFromBytes d b e) →
    (∀ n v, i ≠ .bvSet n v) → exec i s = .next t →
    t.bv.len = s.bv.len ∧ ∀ a, bvRead t.bv a = bvRead s.bv a

/-! ## Encoding and the sequencer -/

/-- R55, R56, R57, R59: decoding an encoded well-formed instruction gives it back, with the rest of the stream. -/
def Obligations.DecodeEncodeRoundTrip : Prop :=
  ∀ (i : Instr) (rest : List Byte), WellFormed i → decode (encode i ++ rest) = .command i rest

/-- R61: a stream that decodes to a command begins with exactly that command's encoding: each legal command has one
spelling. -/
def Obligations.DecodedCommandsHaveOneSpelling : Prop :=
  ∀ (i : Instr) (q rest : List Byte), decode q = .command i rest → q = encode i ++ rest ∧ WellFormed i

/-- R59: a command cut short anywhere spells no command. -/
def Obligations.ATruncatedCommandIsRefusedByTheDecoder : Prop :=
  ∀ (i : Instr) (p q : List Byte), WellFormed i → encode i = p ++ q → p ≠ [] → q ≠ [] → decode p = .truncated

/-- R60: exactly the listed opcode bytes are illegal, and an illegal opcode consumes one byte; a reserved bit of STN or
BIT makes a listed opcode's whole command illegal. -/
def Obligations.IllegalEncodings : Prop :=
  (∀ (b : Byte) (rest : List Byte),
    (b = 0x00 ∨ (0x03 ≤ b.toNat ∧ b.toNat ≤ 0x0F) ∨ (0x12 ≤ b.toNat ∧ b.toNat ≤ 0x1F) ∨
      (0x22 ≤ b.toNat ∧ b.toNat ≤ 0x2F) ∨ (0x33 ≤ b.toNat ∧ b.toNat ≤ 0x3F) ∨ (0x46 ≤ b.toNat ∧ b.toNat ≤ 0x4F) ∨
      0x51 ≤ b.toNat) → decode (b :: rest) = .illegal rest) ∧
  (∀ (op s b x : Byte) (rest : List Byte), 2 ≤ s.toNat →
    (op = 0x10 ∨ op = 0x30 ∨ op = 0x50 → decode (op :: s :: rest) = .illegal rest) ∧
    (op = 0x11 ∨ op = 0x21 ∨ op = 0x32 → decode (op :: s :: x :: rest) = .illegal rest) ∧
    (op = 0x11 ∨ op = 0x21 → decode (op :: b :: s :: rest) = .illegal rest)) ∧
  (∀ (op s : Byte) (data rest : List Byte), 2 ≤ s.toNat → data.length ≤ 65535 → op = 0x20 ∨ op = 0x31 →
    decode (op :: s :: BitVec.ofNat 8 (data.length / 256) :: BitVec.ofNat 8 data.length :: (data ++ rest)) =
      .illegal rest) ∧
  (∀ (i0 i1 i2 i3 b : Byte) (rest : List Byte), 2 ≤ b.toNat →
    decode (0x42 :: i0 :: i1 :: i2 :: i3 :: b :: rest) = .illegal rest)

/-- R58, R63, R64: byte 0 of every command, the commands that are that byte alone, the worked encodings, decoded and
encoded, and the bytes of BOOT. -/
def Obligations.WorkedEncodings : Prop :=
  (∀ i : Instr, (encode i).head? = some (match i with
    | .reset => 0x01
    | .rdStatus => 0x02
    | .medRegister _ => 0x10
    | .medSend _ _ => 0x11
    | .phySend _ _ => 0x20
    | .phyReceive _ _ => 0x21
    | .dlBind _ => 0x30
    | .dlSend _ _ => 0x31
    | .dlReceive _ _ => 0x32
    | .bvNew => 0x40
    | .bvFromBytes _ _ _ => 0x41
    | .bvSet _ _ => 0x42
    | .bvGet _ => 0x43
    | .bvLen => 0x44
    | .bvToBytes => 0x45
    | .netSend _ => 0x50)) ∧
  encodeAll boot = [0x01, 0x10, 0x00, 0x10, 0x01, 0x30, 0x00, 0x30, 0x01] ∧
  (∀ p ∈ ([([0x01], .reset), ([0x02], .rdStatus), ([0x40], .bvNew), ([0x44], .bvLen), ([0x45], .bvToBytes),
      ([0x31, 0x00, 0x00, 0x03, 0x61, 0x62, 0x63], .dlSend .st0 [0x61, 0x62, 0x63]),
      ([0x42, 0xFF, 0xFF, 0xFF, 0xFF, 0x01], .bvSet (-1) true),
      ([0x41, 0x00, 0x01, 0xA5, 0x00, 0x00, 0x00, 0x00, 0x00, 0x00, 0x00, 0x01], .bvFromBytes [0xA5] 0 1),
      ([0x11, 0x01, 0x01], .medSend .st1 true),
      ([0x32, 0x01, 0x7D], .dlReceive .st1 0x7D)] : List (List Byte × Instr)),
    decode p.1 = .command p.2 [] ∧ encode p.2 = p.1)

/-- R120: a step runs the decoded instruction: where the bytes at the head of the stream decode to i, the step is exec
of i once they are taken off the stream (under a configuration R6 admits). -/
def Obligations.StepRunsTheDecodedInstruction : Prop :=
  ∀ (s : State) (i : Instr) (rest : List Byte), admitted s.cfg = true → decode s.input = .command i rest →
    step s = exec i { s with input := rest }

/-- R60, R121, R127: the illegal command is the fault `ILLEGAL_COMMAND` before any other effect, and only `Refused`
while halted; the bytes it takes are off the stream. -/
def Obligations.StepTakesTheIllegalCommand : Prop :=
  ∀ (s : State) (rest : List Byte), admitted s.cfg = true → decode s.input = .illegal rest →
    (s.status = 0x00 → step s =
      .next { s with input := rest, status := 0x01, trace := s.trace ++ [.fault .illegalCommand] }) ∧
    (s.status ≠ 0x00 → step s = .next { s with input := rest, trace := s.trace ++ [.refused .illegal] })

/-- R59, R121(c), R6: there is no step at a truncated command, nor under a configuration R6 does not admit. The last
clause is the model's own (log 8): at the end of the stream the engine holds its state. -/
def Obligations.StepRefusesTruncatedCommandsAndBadConfigurations : Prop :=
  ∀ s : State,
    (admitted s.cfg = true → decode s.input = .truncated → step s = .refused .truncatedCommand) ∧
    (admitted s.cfg = false → step s = .refused .configurationNotAdmitted) ∧
    (admitted s.cfg = true → s.input = [] → step s = .next s)

/-- R6: which configurations are admitted, conditions (a) to (e). -/
def Obligations.AdmittedConfigurationsAreThoseOfR6 : Prop :=
  ∀ cfg : Config, admitted cfg = true ↔
    (cfg.start ≠ cfg.stop ∧ cfg.start ≠ cfg.esc ∧ cfg.stop ≠ cfg.esc) ∧
    (cfg.framing = .parity → ∀ m ∈ [cfg.start, cfg.stop, cfg.esc], m ≠ 0x00 ∧ m ≠ 0x01) ∧
    (cfg.framing = .parity → ∀ n, cfg.maxPayload = some n → 1 ≤ (n : Nat)) ∧
    (1 ≤ cfg.maxBurst ∧ cfg.maxBurst ≤ 127) ∧ 2 ≤ cfg.rxBufMax
end

