-- ==== Sys2Proof/Laws/PerInstr.lean ====
section
/-! SUPPORT. One lemma per instruction about its encoding: byte 0 is the opcode of R58, and the bytes after it have the
length that R59 gives its format. -/

namespace Sys2Proof.Laws

/-- LEN16 read back from its two bytes (R57). -/
theorem len16_len16Bytes {n : Nat} (h : n ≤ maxDataBytes) : len16 (BitVec.ofNat 8 (n / 256)) (BitVec.ofNat 8 n) = n := by
  simp only [maxDataBytes] at h
  simp only [len16, BitVec.toNat_ofNat]
  omega

/-- The encoding of an instruction starts with an opcode of R58, and is as long as R59 says where LEN16 can hold the
number of data bytes. -/
def EncodeShape.Statement (i : Instr) : Prop :=
  ∃ op body, encode i = Opcode.byte op :: body ∧ opcodeOf op.byte = some op ∧
    (WellFormed i → operandLength op.format body = some body.length)

theorem EncodeShape.reset : EncodeShape.Statement .reset := ⟨.reset, _, rfl, rfl, fun _ => rfl⟩

theorem EncodeShape.rdStatus : EncodeShape.Statement .rdStatus := ⟨.rdStatus, _, rfl, rfl, fun _ => rfl⟩

theorem EncodeShape.medRegister (s : Station) : EncodeShape.Statement (.medRegister s) :=
  ⟨.medRegister, _, rfl, rfl, fun _ => rfl⟩

theorem EncodeShape.medSend (s : Station) (b : Bit) : EncodeShape.Statement (.medSend s b) :=
  ⟨.medSend, _, rfl, rfl, fun _ => rfl⟩

theorem EncodeShape.phySend (s : Station) (data : List Byte) : EncodeShape.Statement (.phySend s data) :=
  ⟨.phySend, _, rfl, rfl, fun h => by
    have h : data.length ≤ maxDataBytes := h
    simp only [Opcode.format, operandLength, len16Bytes, List.cons_append, List.nil_append, len16_len16Bytes h,
      List.length_cons, Option.some.injEq]
    omega⟩

theorem EncodeShape.phyReceive (s : Station) (b : Bit) : EncodeShape.Statement (.phyReceive s b) :=
  ⟨.phyReceive, _, rfl, rfl, fun _ => rfl⟩

theorem EncodeShape.dlBind (s : Station) : EncodeShape.Statement (.dlBind s) := ⟨.dlBind, _, rfl, rfl, fun _ => rfl⟩

theorem EncodeShape.dlSend (s : Station) (data : List Byte) : EncodeShape.Statement (.dlSend s data) :=
  ⟨.dlSend, _, rfl, rfl, fun h => by
    have h : data.length ≤ maxDataBytes := h
    simp only [Opcode.format, operandLength, len16Bytes, List.cons_append, List.nil_append, len16_len16Bytes h,
      List.length_cons, Option.some.injEq]
    omega⟩

theorem EncodeShape.dlReceive (s : Station) (x : Byte) : EncodeShape.Statement (.dlReceive s x) :=
  ⟨.dlReceive, _, rfl, rfl, fun _ => rfl⟩

theorem EncodeShape.bvNew : EncodeShape.Statement .bvNew := ⟨.bvNew, _, rfl, rfl, fun _ => rfl⟩

theorem EncodeShape.bvFromBytes (data : List Byte) (first last : BitVec 32) :
    EncodeShape.Statement (.bvFromBytes data first last) :=
  ⟨.bvFromBytes, _, rfl, rfl, fun h => by
    have h : data.length ≤ maxDataBytes := h
    simp only [Opcode.format, operandLength, len16Bytes, word32Bytes, List.cons_append, List.nil_append,
      len16_len16Bytes h, List.length_cons, List.length_append, List.length_nil, Option.some.injEq]
    omega⟩

theorem EncodeShape.bvSet (index : BitVec 32) (b : Bit) : EncodeShape.Statement (.bvSet index b) :=
  ⟨.bvSet, _, rfl, rfl, fun _ => rfl⟩

theorem EncodeShape.bvGet (index : BitVec 32) : EncodeShape.Statement (.bvGet index) :=
  ⟨.bvGet, _, rfl, rfl, fun _ => rfl⟩

theorem EncodeShape.bvLen : EncodeShape.Statement .bvLen := ⟨.bvLen, _, rfl, rfl, fun _ => rfl⟩

theorem EncodeShape.bvToBytes : EncodeShape.Statement .bvToBytes := ⟨.bvToBytes, _, rfl, rfl, fun _ => rfl⟩

theorem EncodeShape.netSend (s : Station) : EncodeShape.Statement (.netSend s) := ⟨.netSend, _, rfl, rfl, fun _ => rfl⟩

end Sys2Proof.Laws
end

