-- ==== Sys2Proof/Laws/Encoding.lean ====
section
/-! SUPPORT. The operand fields and opcodes, read back from the bytes the encoder writes (30_encoding.md R57, R58). -/

namespace Sys2Proof

@[simp] theorem opcodeOf_byte (op : Opcode) : opcodeOf op.byte = some op := by cases op <;> rfl

/-- Byte 0 names an opcode only by the byte R58 gives it. -/
theorem opcodeOf_eq_some {b : Byte} {op : Opcode} (h : opcodeOf b = some op) : b = op.byte := by
  revert h b
  cases op <;> decide

@[simp] theorem stationOf_stationByte (s : Station) : stationOf (stationByte s) = some s := by cases s <;> rfl

theorem stationOf_eq_some {b : Byte} {s : Station} (h : stationOf b = some s) : b = stationByte s := by
  revert h b
  cases s <;> decide

theorem stationOf_eq_none {b : Byte} (h : 2 ≤ b.toNat) : stationOf b = none := by
  revert h b
  decide

@[simp] theorem bitOf_bitByte (b : Bit) : bitOf (bitByte b) = some b := by cases b <;> rfl

theorem bitOf_eq_some {b : Byte} {v : Bit} (h : bitOf b = some v) : b = bitByte v := by
  revert h b
  cases v <;> decide

theorem bitOf_eq_none {b : Byte} (h : 2 ≤ b.toNat) : bitOf b = none := by
  revert h b
  decide

/-- The four bytes of a 32-bit field spell it. -/
theorem word32_word32Bytes (v : BitVec 32) :
    word32 (v.extractLsb' 24 8) (v.extractLsb' 16 8) (v.extractLsb' 8 8) (v.extractLsb' 0 8) = v := by
  apply BitVec.eq_of_getLsbD_eq
  intro i hi
  simp only [word32, BitVec.getLsbD_append, BitVec.getLsbD_extractLsb']
  interval_cases i <;> simp

theorem word32Bytes_word32 (b0 b1 b2 b3 : Byte) : word32Bytes (word32 b0 b1 b2 b3) = [b0, b1, b2, b3] := by
  simp only [word32Bytes, List.cons.injEq, and_true]
  refine ⟨?_, ?_, ?_, ?_⟩ <;>
  · apply BitVec.eq_of_getLsbD_eq
    intro i hi
    simp only [word32, BitVec.getLsbD_append, BitVec.getLsbD_extractLsb']
    interval_cases i <;> simp

/-- LEN16's two bytes, read and written back. -/
theorem len16Bytes_len16 (hi lo : Byte) : len16Bytes (len16 hi lo) = [hi, lo] := by
  have := hi.isLt
  have := lo.isLt
  simp only [len16Bytes, len16, List.cons.injEq, and_true]
  constructor <;> apply BitVec.eq_of_toNat_eq <;> simp only [BitVec.toNat_ofNat] <;> omega

theorem len16_le (hi lo : Byte) : len16 hi lo ≤ maxDataBytes := by
  have := hi.isLt
  have := lo.isLt
  simp only [len16, maxDataBytes]
  omega

end Sys2Proof
end

