-- ==== Sys2Proof/Laws/State.lean ====
section
/-! SUPPORT. One lemma per field per update of the state, so that no later proof unfolds a record update. A station is
read through `State.station`. -/

namespace Sys2Proof.Machine

variable (s : State) (st a b : Station)

/-! ## emit -/

@[simp] theorem State.emit_cfg (e : Event) : (s.emit e).cfg = s.cfg := rfl
@[simp] theorem State.emit_slot0 (e : Event) : (s.emit e).slot0 = s.slot0 := rfl
@[simp] theorem State.emit_slot1 (e : Event) : (s.emit e).slot1 = s.slot1 := rfl
@[simp] theorem State.emit_burst (e : Event) : (s.emit e).burst = s.burst := rfl
@[simp] theorem State.emit_bv (e : Event) : (s.emit e).bv = s.bv := rfl
@[simp] theorem State.emit_status (e : Event) : (s.emit e).status = s.status := rfl
@[simp] theorem State.emit_trace (e : Event) : (s.emit e).trace = s.trace ++ [e] := rfl
@[simp] theorem State.emit_input (e : Event) : (s.emit e).input = s.input := rfl
@[simp] theorem State.emit_draws (e : Event) : (s.emit e).draws = s.draws := rfl
@[simp] theorem State.emit_freeCount (e : Event) : (s.emit e).freeCount = s.freeCount := rfl
@[simp] theorem State.emit_station (e : Event) : (s.emit e).station st = s.station st := by cases st <;> rfl

/-! ## setStatus -/

@[simp] theorem State.setStatus_cfg (v : Byte) : (s.setStatus v).cfg = s.cfg := rfl
@[simp] theorem State.setStatus_slot0 (v : Byte) : (s.setStatus v).slot0 = s.slot0 := rfl
@[simp] theorem State.setStatus_slot1 (v : Byte) : (s.setStatus v).slot1 = s.slot1 := rfl
@[simp] theorem State.setStatus_burst (v : Byte) : (s.setStatus v).burst = s.burst := rfl
@[simp] theorem State.setStatus_bv (v : Byte) : (s.setStatus v).bv = s.bv := rfl
@[simp] theorem State.setStatus_status (v : Byte) : (s.setStatus v).status = v := rfl
@[simp] theorem State.setStatus_trace (v : Byte) : (s.setStatus v).trace = s.trace := rfl
@[simp] theorem State.setStatus_input (v : Byte) : (s.setStatus v).input = s.input := rfl
@[simp] theorem State.setStatus_draws (v : Byte) : (s.setStatus v).draws = s.draws := rfl
@[simp] theorem State.setStatus_freeCount (v : Byte) : (s.setStatus v).freeCount = s.freeCount := rfl
@[simp] theorem State.setStatus_station (v : Byte) : (s.setStatus v).station st = s.station st := by cases st <;> rfl

/-! ## setSlot0 -/

@[simp] theorem State.setSlot0_cfg (v : Option Station) : (s.setSlot0 v).cfg = s.cfg := rfl
@[simp] theorem State.setSlot0_slot0 (v : Option Station) : (s.setSlot0 v).slot0 = v := rfl
@[simp] theorem State.setSlot0_slot1 (v : Option Station) : (s.setSlot0 v).slot1 = s.slot1 := rfl
@[simp] theorem State.setSlot0_burst (v : Option Station) : (s.setSlot0 v).burst = s.burst := rfl
@[simp] theorem State.setSlot0_bv (v : Option Station) : (s.setSlot0 v).bv = s.bv := rfl
@[simp] theorem State.setSlot0_status (v : Option Station) : (s.setSlot0 v).status = s.status := rfl
@[simp] theorem State.setSlot0_trace (v : Option Station) : (s.setSlot0 v).trace = s.trace := rfl
@[simp] theorem State.setSlot0_input (v : Option Station) : (s.setSlot0 v).input = s.input := rfl
@[simp] theorem State.setSlot0_draws (v : Option Station) : (s.setSlot0 v).draws = s.draws := rfl
@[simp] theorem State.setSlot0_freeCount (v : Option Station) : (s.setSlot0 v).freeCount = s.freeCount := rfl
@[simp] theorem State.setSlot0_station (v : Option Station) : (s.setSlot0 v).station st = s.station st := by cases st <;> rfl

/-! ## setSlot1 -/

@[simp] theorem State.setSlot1_cfg (v : Option Station) : (s.setSlot1 v).cfg = s.cfg := rfl
@[simp] theorem State.setSlot1_slot0 (v : Option Station) : (s.setSlot1 v).slot0 = s.slot0 := rfl
@[simp] theorem State.setSlot1_slot1 (v : Option Station) : (s.setSlot1 v).slot1 = v := rfl
@[simp] theorem State.setSlot1_burst (v : Option Station) : (s.setSlot1 v).burst = s.burst := rfl
@[simp] theorem State.setSlot1_bv (v : Option Station) : (s.setSlot1 v).bv = s.bv := rfl
@[simp] theorem State.setSlot1_status (v : Option Station) : (s.setSlot1 v).status = s.status := rfl
@[simp] theorem State.setSlot1_trace (v : Option Station) : (s.setSlot1 v).trace = s.trace := rfl
@[simp] theorem State.setSlot1_input (v : Option Station) : (s.setSlot1 v).input = s.input := rfl
@[simp] theorem State.setSlot1_draws (v : Option Station) : (s.setSlot1 v).draws = s.draws := rfl
@[simp] theorem State.setSlot1_freeCount (v : Option Station) : (s.setSlot1 v).freeCount = s.freeCount := rfl
@[simp] theorem State.setSlot1_station (v : Option Station) : (s.setSlot1 v).station st = s.station st := by cases st <;> rfl

/-! ## setBurst -/

@[simp] theorem State.setBurst_cfg (v : BitVec 8) : (s.setBurst v).cfg = s.cfg := rfl
@[simp] theorem State.setBurst_slot0 (v : BitVec 8) : (s.setBurst v).slot0 = s.slot0 := rfl
@[simp] theorem State.setBurst_slot1 (v : BitVec 8) : (s.setBurst v).slot1 = s.slot1 := rfl
@[simp] theorem State.setBurst_burst (v : BitVec 8) : (s.setBurst v).burst = v := rfl
@[simp] theorem State.setBurst_bv (v : BitVec 8) : (s.setBurst v).bv = s.bv := rfl
@[simp] theorem State.setBurst_status (v : BitVec 8) : (s.setBurst v).status = s.status := rfl
@[simp] theorem State.setBurst_trace (v : BitVec 8) : (s.setBurst v).trace = s.trace := rfl
@[simp] theorem State.setBurst_input (v : BitVec 8) : (s.setBurst v).input = s.input := rfl
@[simp] theorem State.setBurst_draws (v : BitVec 8) : (s.setBurst v).draws = s.draws := rfl
@[simp] theorem State.setBurst_freeCount (v : BitVec 8) : (s.setBurst v).freeCount = s.freeCount := rfl
@[simp] theorem State.setBurst_station (v : BitVec 8) : (s.setBurst v).station st = s.station st := by cases st <;> rfl

/-! ## setBv -/

@[simp] theorem State.setBv_cfg (v : BitVectorUnit) : (s.setBv v).cfg = s.cfg := rfl
@[simp] theorem State.setBv_slot0 (v : BitVectorUnit) : (s.setBv v).slot0 = s.slot0 := rfl
@[simp] theorem State.setBv_slot1 (v : BitVectorUnit) : (s.setBv v).slot1 = s.slot1 := rfl
@[simp] theorem State.setBv_burst (v : BitVectorUnit) : (s.setBv v).burst = s.burst := rfl
@[simp] theorem State.setBv_bv (v : BitVectorUnit) : (s.setBv v).bv = v := rfl
@[simp] theorem State.setBv_status (v : BitVectorUnit) : (s.setBv v).status = s.status := rfl
@[simp] theorem State.setBv_trace (v : BitVectorUnit) : (s.setBv v).trace = s.trace := rfl
@[simp] theorem State.setBv_input (v : BitVectorUnit) : (s.setBv v).input = s.input := rfl
@[simp] theorem State.setBv_draws (v : BitVectorUnit) : (s.setBv v).draws = s.draws := rfl
@[simp] theorem State.setBv_freeCount (v : BitVectorUnit) : (s.setBv v).freeCount = s.freeCount := rfl
@[simp] theorem State.setBv_station (v : BitVectorUnit) : (s.setBv v).station st = s.station st := by cases st <;> rfl

/-! ## setInput -/

@[simp] theorem State.setInput_cfg (q : List Byte) : (s.setInput q).cfg = s.cfg := rfl
@[simp] theorem State.setInput_slot0 (q : List Byte) : (s.setInput q).slot0 = s.slot0 := rfl
@[simp] theorem State.setInput_slot1 (q : List Byte) : (s.setInput q).slot1 = s.slot1 := rfl
@[simp] theorem State.setInput_burst (q : List Byte) : (s.setInput q).burst = s.burst := rfl
@[simp] theorem State.setInput_bv (q : List Byte) : (s.setInput q).bv = s.bv := rfl
@[simp] theorem State.setInput_status (q : List Byte) : (s.setInput q).status = s.status := rfl
@[simp] theorem State.setInput_trace (q : List Byte) : (s.setInput q).trace = s.trace := rfl
@[simp] theorem State.setInput_input (q : List Byte) : (s.setInput q).input = q := rfl
@[simp] theorem State.setInput_draws (q : List Byte) : (s.setInput q).draws = s.draws := rfl
@[simp] theorem State.setInput_freeCount (q : List Byte) : (s.setInput q).freeCount = s.freeCount := rfl
@[simp] theorem State.setInput_station (q : List Byte) : (s.setInput q).station st = s.station st := by cases st <;> rfl

/-! ## setDraws -/

@[simp] theorem State.setDraws_cfg (ds : List Draw) : (s.setDraws ds).cfg = s.cfg := rfl
@[simp] theorem State.setDraws_slot0 (ds : List Draw) : (s.setDraws ds).slot0 = s.slot0 := rfl
@[simp] theorem State.setDraws_slot1 (ds : List Draw) : (s.setDraws ds).slot1 = s.slot1 := rfl
@[simp] theorem State.setDraws_burst (ds : List Draw) : (s.setDraws ds).burst = s.burst := rfl
@[simp] theorem State.setDraws_bv (ds : List Draw) : (s.setDraws ds).bv = s.bv := rfl
@[simp] theorem State.setDraws_status (ds : List Draw) : (s.setDraws ds).status = s.status := rfl
@[simp] theorem State.setDraws_trace (ds : List Draw) : (s.setDraws ds).trace = s.trace := rfl
@[simp] theorem State.setDraws_input (ds : List Draw) : (s.setDraws ds).input = s.input := rfl
@[simp] theorem State.setDraws_draws (ds : List Draw) : (s.setDraws ds).draws = ds := rfl
@[simp] theorem State.setDraws_freeCount (ds : List Draw) : (s.setDraws ds).freeCount = s.freeCount := rfl
@[simp] theorem State.setDraws_station (ds : List Draw) : (s.setDraws ds).station st = s.station st := by cases st <;> rfl

/-! ## useFree -/

@[simp] theorem State.useFree_cfg : s.useFree.cfg = s.cfg := rfl
@[simp] theorem State.useFree_slot0 : s.useFree.slot0 = s.slot0 := rfl
@[simp] theorem State.useFree_slot1 : s.useFree.slot1 = s.slot1 := rfl
@[simp] theorem State.useFree_burst : s.useFree.burst = s.burst := rfl
@[simp] theorem State.useFree_bv : s.useFree.bv = s.bv := rfl
@[simp] theorem State.useFree_status : s.useFree.status = s.status := rfl
@[simp] theorem State.useFree_trace : s.useFree.trace = s.trace := rfl
@[simp] theorem State.useFree_input : s.useFree.input = s.input := rfl
@[simp] theorem State.useFree_draws : s.useFree.draws = s.draws := rfl
@[simp] theorem State.useFree_freeCount : s.useFree.freeCount = s.freeCount + 1 := rfl
@[simp] theorem State.useFree_station : s.useFree.station st = s.station st := by cases st <;> rfl

/-! ## setStation -/

@[simp] theorem State.setStation_cfg (v : StationState) : (s.setStation st v).cfg = s.cfg := by cases st <;> rfl
@[simp] theorem State.setStation_slot0 (v : StationState) : (s.setStation st v).slot0 = s.slot0 := by cases st <;> rfl
@[simp] theorem State.setStation_slot1 (v : StationState) : (s.setStation st v).slot1 = s.slot1 := by cases st <;> rfl
@[simp] theorem State.setStation_burst (v : StationState) : (s.setStation st v).burst = s.burst := by cases st <;> rfl
@[simp] theorem State.setStation_bv (v : StationState) : (s.setStation st v).bv = s.bv := by cases st <;> rfl
@[simp] theorem State.setStation_status (v : StationState) : (s.setStation st v).status = s.status := by cases st <;> rfl
@[simp] theorem State.setStation_trace (v : StationState) : (s.setStation st v).trace = s.trace := by cases st <;> rfl
@[simp] theorem State.setStation_input (v : StationState) : (s.setStation st v).input = s.input := by cases st <;> rfl
@[simp] theorem State.setStation_draws (v : StationState) : (s.setStation st v).draws = s.draws := by cases st <;> rfl
@[simp] theorem State.setStation_freeCount (v : StationState) : (s.setStation st v).freeCount = s.freeCount := by cases st <;> rfl
@[simp] theorem State.setStation_same (v : StationState) : (s.setStation st v).station st = v := by cases st <;> rfl
theorem State.setStation_station (v : StationState) :
    (s.setStation a v).station b = if b = a then v else s.station b := by
  cases a <;> cases b <;> rfl
@[simp] theorem State.setStation_setStation (v w : StationState) :
    (s.setStation st v).setStation st w = s.setStation st w := by cases st <;> rfl
@[simp] theorem State.setStation_station_self : s.setStation st (s.station st) = s := by cases st <;> rfl
theorem State.setStation_ne (v : StationState) (h : b ≠ a) : (s.setStation a v).station b = s.station b := by
  rw [State.setStation_station, if_neg h]

/-! ## setBound -/

@[simp] theorem State.setBound_cfg (v : Bool) : (s.setBound st v).cfg = s.cfg := by cases st <;> rfl
@[simp] theorem State.setBound_slot0 (v : Bool) : (s.setBound st v).slot0 = s.slot0 := by cases st <;> rfl
@[simp] theorem State.setBound_slot1 (v : Bool) : (s.setBound st v).slot1 = s.slot1 := by cases st <;> rfl
@[simp] theorem State.setBound_burst (v : Bool) : (s.setBound st v).burst = s.burst := by cases st <;> rfl
@[simp] theorem State.setBound_bv (v : Bool) : (s.setBound st v).bv = s.bv := by cases st <;> rfl
@[simp] theorem State.setBound_status (v : Bool) : (s.setBound st v).status = s.status := by cases st <;> rfl
@[simp] theorem State.setBound_trace (v : Bool) : (s.setBound st v).trace = s.trace := by cases st <;> rfl
@[simp] theorem State.setBound_input (v : Bool) : (s.setBound st v).input = s.input := by cases st <;> rfl
@[simp] theorem State.setBound_draws (v : Bool) : (s.setBound st v).draws = s.draws := by cases st <;> rfl
@[simp] theorem State.setBound_freeCount (v : Bool) : (s.setBound st v).freeCount = s.freeCount := by cases st <;> rfl
@[simp] theorem State.setBound_same (v : Bool) :
    (s.setBound st v).station st = { s.station st with bound := v } := by cases st <;> rfl
theorem State.setBound_ne (v : Bool) (h : b ≠ a) : (s.setBound a v).station b = s.station b :=
  State.setStation_ne s a b _ h

/-! ## setDeserializer -/

@[simp] theorem State.setDeserializer_cfg (shift : Byte) (count : BitVec 3) : (s.setDeserializer st shift count).cfg = s.cfg := by cases st <;> rfl
@[simp] theorem State.setDeserializer_slot0 (shift : Byte) (count : BitVec 3) : (s.setDeserializer st shift count).slot0 = s.slot0 := by cases st <;> rfl
@[simp] theorem State.setDeserializer_slot1 (shift : Byte) (count : BitVec 3) : (s.setDeserializer st shift count).slot1 = s.slot1 := by cases st <;> rfl
@[simp] theorem State.setDeserializer_burst (shift : Byte) (count : BitVec 3) : (s.setDeserializer st shift count).burst = s.burst := by cases st <;> rfl
@[simp] theorem State.setDeserializer_bv (shift : Byte) (count : BitVec 3) : (s.setDeserializer st shift count).bv = s.bv := by cases st <;> rfl
@[simp] theorem State.setDeserializer_status (shift : Byte) (count : BitVec 3) : (s.setDeserializer st shift count).status = s.status := by cases st <;> rfl
@[simp] theorem State.setDeserializer_trace (shift : Byte) (count : BitVec 3) : (s.setDeserializer st shift count).trace = s.trace := by cases st <;> rfl
@[simp] theorem State.setDeserializer_input (shift : Byte) (count : BitVec 3) : (s.setDeserializer st shift count).input = s.input := by cases st <;> rfl
@[simp] theorem State.setDeserializer_draws (shift : Byte) (count : BitVec 3) : (s.setDeserializer st shift count).draws = s.draws := by cases st <;> rfl
@[simp] theorem State.setDeserializer_freeCount (shift : Byte) (count : BitVec 3) : (s.setDeserializer st shift count).freeCount = s.freeCount := by cases st <;> rfl
@[simp] theorem State.setDeserializer_same (shift : Byte) (count : BitVec 3) :
    (s.setDeserializer st shift count).station st = { s.station st with rxShift := shift, rxCount := count } := by cases st <;> rfl
theorem State.setDeserializer_ne (shift : Byte) (count : BitVec 3) (h : b ≠ a) : (s.setDeserializer a shift count).station b = s.station b :=
  State.setStation_ne s a b _ h

/-! ## setRxBuf -/

@[simp] theorem State.setRxBuf_cfg (q : List Byte) : (s.setRxBuf st q).cfg = s.cfg := by cases st <;> rfl
@[simp] theorem State.setRxBuf_slot0 (q : List Byte) : (s.setRxBuf st q).slot0 = s.slot0 := by cases st <;> rfl
@[simp] theorem State.setRxBuf_slot1 (q : List Byte) : (s.setRxBuf st q).slot1 = s.slot1 := by cases st <;> rfl
@[simp] theorem State.setRxBuf_burst (q : List Byte) : (s.setRxBuf st q).burst = s.burst := by cases st <;> rfl
@[simp] theorem State.setRxBuf_bv (q : List Byte) : (s.setRxBuf st q).bv = s.bv := by cases st <;> rfl
@[simp] theorem State.setRxBuf_status (q : List Byte) : (s.setRxBuf st q).status = s.status := by cases st <;> rfl
@[simp] theorem State.setRxBuf_trace (q : List Byte) : (s.setRxBuf st q).trace = s.trace := by cases st <;> rfl
@[simp] theorem State.setRxBuf_input (q : List Byte) : (s.setRxBuf st q).input = s.input := by cases st <;> rfl
@[simp] theorem State.setRxBuf_draws (q : List Byte) : (s.setRxBuf st q).draws = s.draws := by cases st <;> rfl
@[simp] theorem State.setRxBuf_freeCount (q : List Byte) : (s.setRxBuf st q).freeCount = s.freeCount := by cases st <;> rfl
@[simp] theorem State.setRxBuf_same (q : List Byte) :
    (s.setRxBuf st q).station st = { s.station st with rxBuf := q } := by cases st <;> rfl
theorem State.setRxBuf_ne (q : List Byte) (h : b ≠ a) : (s.setRxBuf a q).station b = s.station b :=
  State.setStation_ne s a b _ h

/-! ## appendRx -/

@[simp] theorem State.appendRx_cfg (x : Byte) : (s.appendRx st x).cfg = s.cfg := by cases st <;> rfl
@[simp] theorem State.appendRx_slot0 (x : Byte) : (s.appendRx st x).slot0 = s.slot0 := by cases st <;> rfl
@[simp] theorem State.appendRx_slot1 (x : Byte) : (s.appendRx st x).slot1 = s.slot1 := by cases st <;> rfl
@[simp] theorem State.appendRx_burst (x : Byte) : (s.appendRx st x).burst = s.burst := by cases st <;> rfl
@[simp] theorem State.appendRx_bv (x : Byte) : (s.appendRx st x).bv = s.bv := by cases st <;> rfl
@[simp] theorem State.appendRx_status (x : Byte) : (s.appendRx st x).status = s.status := by cases st <;> rfl
@[simp] theorem State.appendRx_trace (x : Byte) : (s.appendRx st x).trace = s.trace := by cases st <;> rfl
@[simp] theorem State.appendRx_input (x : Byte) : (s.appendRx st x).input = s.input := by cases st <;> rfl
@[simp] theorem State.appendRx_draws (x : Byte) : (s.appendRx st x).draws = s.draws := by cases st <;> rfl
@[simp] theorem State.appendRx_freeCount (x : Byte) : (s.appendRx st x).freeCount = s.freeCount := by cases st <;> rfl
@[simp] theorem State.appendRx_same (x : Byte) :
    (s.appendRx st x).station st = { s.station st with rxBuf := (s.station st).rxBuf ++ [x] } := by cases st <;> rfl
theorem State.appendRx_ne (x : Byte) (h : b ≠ a) : (s.appendRx a x).station b = s.station b :=
  State.setStation_ne s a b _ h

/-! ## clearRx -/

@[simp] theorem State.clearRx_cfg : (s.clearRx st).cfg = s.cfg := by cases st <;> rfl
@[simp] theorem State.clearRx_slot0 : (s.clearRx st).slot0 = s.slot0 := by cases st <;> rfl
@[simp] theorem State.clearRx_slot1 : (s.clearRx st).slot1 = s.slot1 := by cases st <;> rfl
@[simp] theorem State.clearRx_burst : (s.clearRx st).burst = s.burst := by cases st <;> rfl
@[simp] theorem State.clearRx_bv : (s.clearRx st).bv = s.bv := by cases st <;> rfl
@[simp] theorem State.clearRx_status : (s.clearRx st).status = s.status := by cases st <;> rfl
@[simp] theorem State.clearRx_trace : (s.clearRx st).trace = s.trace := by cases st <;> rfl
@[simp] theorem State.clearRx_input : (s.clearRx st).input = s.input := by cases st <;> rfl
@[simp] theorem State.clearRx_draws : (s.clearRx st).draws = s.draws := by cases st <;> rfl
@[simp] theorem State.clearRx_freeCount : (s.clearRx st).freeCount = s.freeCount := by cases st <;> rfl
@[simp] theorem State.clearRx_same :
    (s.clearRx st).station st = { s.station st with rxBuf := [] } := by cases st <;> rfl
theorem State.clearRx_ne (h : b ≠ a) : (s.clearRx a).station b = s.station b :=
  State.setStation_ne s a b _ h

theorem State.setRxBuf_self : s.setRxBuf st (s.station st).rxBuf = s := by cases st <;> rfl

/-! ## releaseRx -/

@[simp] theorem State.releaseRx_cfg : (s.releaseRx st).cfg = s.cfg := by cases st <;> rfl
@[simp] theorem State.releaseRx_slot0 : (s.releaseRx st).slot0 = s.slot0 := by cases st <;> rfl
@[simp] theorem State.releaseRx_slot1 : (s.releaseRx st).slot1 = s.slot1 := by cases st <;> rfl
@[simp] theorem State.releaseRx_burst : (s.releaseRx st).burst = s.burst := by cases st <;> rfl
@[simp] theorem State.releaseRx_bv : (s.releaseRx st).bv = s.bv := by cases st <;> rfl
@[simp] theorem State.releaseRx_status : (s.releaseRx st).status = s.status := by cases st <;> rfl
@[simp] theorem State.releaseRx_trace : (s.releaseRx st).trace = s.trace := by cases st <;> rfl
@[simp] theorem State.releaseRx_input : (s.releaseRx st).input = s.input := by cases st <;> rfl
@[simp] theorem State.releaseRx_draws : (s.releaseRx st).draws = s.draws := by cases st <;> rfl
@[simp] theorem State.releaseRx_freeCount : (s.releaseRx st).freeCount = s.freeCount + 1 := by cases st <;> rfl
@[simp] theorem State.releaseRx_same :
    (s.releaseRx st).station st =
      { s.station st with rxBuf := (Config.freeRxBuf s.freeCount).take s.cfg.rxBufMax } := by cases st <;> rfl
theorem State.releaseRx_ne (h : b ≠ a) : (s.releaseRx a).station b = s.station b := by
  simp only [State.releaseRx, State.useFree_station]
  exact State.setRxBuf_ne s a b _ h

/-! ## takeDraw -/

@[simp] theorem State.takeDraw_cfg : s.takeDraw.cfg = s.cfg := by
  unfold State.takeDraw; split <;> rfl
@[simp] theorem State.takeDraw_slot0 : s.takeDraw.slot0 = s.slot0 := by
  unfold State.takeDraw; split <;> rfl
@[simp] theorem State.takeDraw_slot1 : s.takeDraw.slot1 = s.slot1 := by
  unfold State.takeDraw; split <;> rfl
@[simp] theorem State.takeDraw_burst : s.takeDraw.burst = s.burst := by
  unfold State.takeDraw; split <;> rfl
@[simp] theorem State.takeDraw_bv : s.takeDraw.bv = s.bv := by
  unfold State.takeDraw; split <;> rfl
@[simp] theorem State.takeDraw_status : s.takeDraw.status = s.status := by
  unfold State.takeDraw; split <;> rfl
@[simp] theorem State.takeDraw_trace : s.takeDraw.trace = s.trace := by
  unfold State.takeDraw; split <;> rfl
@[simp] theorem State.takeDraw_input : s.takeDraw.input = s.input := by
  unfold State.takeDraw; split <;> rfl
@[simp] theorem State.takeDraw_draws : s.takeDraw.draws = s.draws.tail := by
  unfold State.takeDraw; split <;> simp_all
@[simp] theorem State.takeDraw_station : s.takeDraw.station st = s.station st := by
  unfold State.takeDraw; split <;> simp

/-! ## afterTransfer -/

@[simp] theorem State.afterTransfer_cfg : s.afterTransfer.cfg = s.cfg := by
  unfold State.afterTransfer; split <;> simp
@[simp] theorem State.afterTransfer_slot0 : s.afterTransfer.slot0 = s.slot0 := by
  unfold State.afterTransfer; split <;> simp
@[simp] theorem State.afterTransfer_slot1 : s.afterTransfer.slot1 = s.slot1 := by
  unfold State.afterTransfer; split <;> simp
@[simp] theorem State.afterTransfer_bv : s.afterTransfer.bv = s.bv := by
  unfold State.afterTransfer; split <;> simp
@[simp] theorem State.afterTransfer_status : s.afterTransfer.status = s.status := by
  unfold State.afterTransfer; split <;> simp
@[simp] theorem State.afterTransfer_trace : s.afterTransfer.trace = s.trace := by
  unfold State.afterTransfer; split <;> simp
@[simp] theorem State.afterTransfer_input : s.afterTransfer.input = s.input := by
  unfold State.afterTransfer; split <;> simp
@[simp] theorem State.afterTransfer_station : s.afterTransfer.station st = s.station st := by
  unfold State.afterTransfer; split <;> simp
theorem State.afterTransfer_perfect (h : s.cfg.medium = .perfect) : s.afterTransfer = s := by
  simp [State.afterTransfer, h]
theorem State.deliveredBit_perfect (h : s.cfg.medium = .perfect) (v : Bit) : s.deliveredBit v = v := by
  simp [State.deliveredBit, h, perfectBit]

/-! ## resetState -/

@[simp] theorem resetState_cfg : (resetState s).cfg = s.cfg := rfl
@[simp] theorem resetState_slot0 : (resetState s).slot0 = none := rfl
@[simp] theorem resetState_slot1 : (resetState s).slot1 = none := rfl
@[simp] theorem resetState_burst : (resetState s).burst = 0 := rfl
@[simp] theorem resetState_bv : (resetState s).bv = BitVectorUnit.reset := rfl
@[simp] theorem resetState_status : (resetState s).status = 0x00 := rfl
@[simp] theorem resetState_trace : (resetState s).trace = s.trace := rfl
@[simp] theorem resetState_input : (resetState s).input = s.input := rfl
@[simp] theorem resetState_draws : (resetState s).draws = s.draws := rfl
@[simp] theorem resetState_freeCount : (resetState s).freeCount = s.freeCount := rfl
@[simp] theorem resetState_station : (resetState s).station st = StationState.reset := by cases st <;> rfl

/-! ## Extensionality through `State.station` -/

theorem State.eq_of_fields {s t : State} (hcfg : s.cfg = t.cfg) (h0 : s.slot0 = t.slot0) (h1 : s.slot1 = t.slot1)
    (hb : s.burst = t.burst) (hst : ∀ st, s.station st = t.station st) (hbv : s.bv = t.bv) (hs : s.status = t.status)
    (ht : s.trace = t.trace) (hi : s.input = t.input) (hd : s.draws = t.draws) (hf : s.freeCount = t.freeCount) :
    s = t := by
  have a := hst .st0
  have b := hst .st1
  cases s; cases t
  simp only [State.station] at a b
  simp_all

end Sys2Proof.Machine
end

