-- ==== Sys2Proof/Laws/Ops.lean ====
section
/-! SUPPORT. The laws of the shared operations: running a rule, raising a fault, the bit space and its conversion to
bytes. -/

namespace Sys2Proof.Machine

/-! ## Running a rule -/

@[simp] theorem Run.final_done (s : State) : (Run.done s).final = s := rfl
@[simp] theorem Run.final_aborted (s : State) : (Run.aborted s).final = s := rfl
@[simp] theorem Run.done_andThen (s : State) (f : State → Run) : (Run.done s).andThen f = f s := rfl
@[simp] theorem Run.aborted_andThen (s : State) (f : State → Run) : (Run.aborted s).andThen f = .aborted s := rfl

theorem Run.andThen_assoc (r : Run) (f g : State → Run) :
    (r.andThen f).andThen g = r.andThen fun s => (f s).andThen g := by
  cases r <;> rfl

theorem Run.andThen_done (r : Run) : r.andThen Run.done = r := by cases r <;> rfl

section
variable {α β : Type} (body : α → State → Run)

@[simp] theorem forEach_nil (s : State) : forEach body [] s = .done s := rfl
@[simp] theorem forEach_cons (x : α) (xs : List α) (s : State) :
    forEach body (x :: xs) s = (body x s).andThen (forEach body xs) := rfl

theorem forEach_append (xs ys : List α) (s : State) :
    forEach body (xs ++ ys) s = (forEach body xs s).andThen (forEach body ys) := by
  induction xs generalizing s with
  | nil => rfl
  | cons x xs ih =>
    simp only [List.cons_append, forEach_cons, Run.andThen_assoc]
    exact congrArg _ (funext ih)

/-- Running over the pieces one after another is running over all their elements. -/
theorem forEach_forEach (f : β → List α) (ys : List β) (s : State) :
    forEach (fun y => forEach body (f y)) ys s = forEach body (ys.flatMap f) s := by
  induction ys generalizing s with
  | nil => rfl
  | cons y ys ih =>
    simp only [forEach_cons, List.flatMap_cons, forEach_append]
    exact congrArg _ (funext ih)

end

/-- A property that each statement keeps is kept by the statements together. -/
theorem Run.andThen_keeps {P : State → Prop} {r : Run} {f : State → Run} (hr : P r.final)
    (hf : ∀ s, P s → P (f s).final) : P (r.andThen f).final := by
  cases r with
  | done s => exact hf s hr
  | aborted s => exact hr

theorem forEach_keeps {α : Type} {P : State → Prop} {body : α → State → Run}
    (h : ∀ x s, P s → P (body x s).final) (xs : List α) (s : State) (hs : P s) : P (forEach body xs s).final := by
  induction xs generalizing s with
  | nil => exact hs
  | cons x xs ih => exact Run.andThen_keeps (h x s hs) ih

/-! ## Faults -/

theorem FaultCode.code_ne_zero (c : FaultCode) : c.code ≠ 0x00 := by cases c <;> decide

theorem FaultCode.code_injective (c d : FaultCode) (h : c.code = d.code) : c = d := by
  cases c <;> cases d <;> first | rfl | exact absurd h (by decide)

theorem FaultCode.mem_all (c : FaultCode) : c ∈ FaultCode.all := by cases c <;> decide

theorem State.halted_iff (s : State) : s.halted = true ↔ s.status ≠ 0x00 := by simp [State.halted]

theorem State.not_halted_iff (s : State) : s.halted = false ↔ s.status = 0x00 := by simp [State.halted]

/-- Fault entry while no fault has been recorded (R131). -/
theorem raiseFault_first (c : FaultCode) (s : State) (h : s.status = 0x00) :
    raiseFault c s = .aborted ((s.setStatus c.code).emit (.fault c)) := by simp [raiseFault, h]

/-- No new event is a fault. -/
def NoFault (es : List Event) : Prop := ∀ c, Event.fault c ∉ es

/-- What a rule does to `STATUS` and the trace (R131, R132, R135): run to its end it leaves the status and emits no
`Fault`; aborted, it has raised exactly one, its last event, and the first code since reset is the one kept. -/
def Run.FaultsOnce (s : State) : Run → Prop
  | .done t => t.status = s.status ∧ ∃ es, t.trace = s.trace ++ es ∧ NoFault es
  | .aborted t => ∃ c es, t.status = (if s.status = 0x00 then c.code else s.status) ∧
      t.trace = s.trace ++ es ++ [.fault c] ∧ NoFault es

theorem noFault_nil : NoFault [] := by simp [NoFault]

theorem noFault_append {es fs : List Event} (h : NoFault es) (g : NoFault fs) : NoFault (es ++ fs) := by
  intro c; simp [h c, g c]

theorem Run.FaultsOnce.done_of {s t : State} (hs : t.status = s.status) (es : List Event)
    (ht : t.trace = s.trace ++ es) (he : NoFault es) : Run.FaultsOnce s (.done t) := ⟨hs, es, ht, he⟩

theorem raiseFault_faultsOnce (c : FaultCode) {s t : State} (hs : t.status = s.status) (es : List Event)
    (ht : t.trace = s.trace ++ es) (he : NoFault es) : Run.FaultsOnce s (raiseFault c t) := by
  refine ⟨c, es, ?_, ?_, he⟩
  · rw [hs]; split <;> simp [hs]
  · split <;> simp [ht]

theorem Run.FaultsOnce.andThen {s : State} {r : Run} {f : State → Run} (hr : Run.FaultsOnce s r)
    (hf : ∀ t, Run.FaultsOnce t (f t)) : Run.FaultsOnce s (r.andThen f) := by
  cases r with
  | aborted t => exact hr
  | done t =>
    obtain ⟨hs, es, ht, he⟩ := hr
    have h := hf t
    simp only [Run.done_andThen]
    cases hft : f t with
    | done u =>
      rw [hft] at h
      obtain ⟨hs', es', ht', he'⟩ := h
      exact ⟨hs'.trans hs, es ++ es', by rw [ht', ht, List.append_assoc], noFault_append he he'⟩
    | aborted u =>
      rw [hft] at h
      obtain ⟨c, es', hs', ht', he'⟩ := h
      exact ⟨c, es ++ es', by rw [hs', hs], by rw [ht', ht]; simp, noFault_append he he'⟩

theorem forEach_faultsOnce {α : Type} {body : α → State → Run} (h : ∀ x t, Run.FaultsOnce t (body x t))
    (xs : List α) (s : State) : Run.FaultsOnce s (forEach body xs s) := by
  induction xs generalizing s with
  | nil => exact .done_of rfl [] (by simp) noFault_nil
  | cons x xs ih => exact (h x s).andThen ih

/-- From a state without a fault, whether a rule ran to its end shows in `STATUS`. -/
theorem Run.FaultsOnce.done_iff {s : State} {r : Run} (h : Run.FaultsOnce s r) (hs : s.status = 0x00) :
    r = .done r.final ↔ r.final.status = 0x00 := by
  cases r with
  | done t => simp [h.1, hs]
  | aborted t =>
    obtain ⟨c, es, ht, -⟩ := h
    simpa [ht, hs] using c.code_ne_zero

/-! ## The bit space -/

theorem Memory.mem_list (m : Memory) (i j : Nat) : j ∈ Memory.list m i ↔ j = i ∨ j ∈ m := by
  induction m with
  | nil => simp [Memory.list]
  | cons k rest ih =>
    unfold Memory.list
    split
    · simp
    · split
      · subst i; simp
      · simp only [List.mem_cons, ih]; tauto

/-- A read after a write gives the value written at that index, and what was there at every other (R31). -/
theorem Memory.read_write (m : Memory) (i j : Nat) (v : Bit) :
    Memory.read (Memory.write m i v) j = if j = i then v else Memory.read m j := by
  rw [Bool.eq_iff_iff]
  by_cases h : j = i
  · subst h; cases v <;> simp [Memory.write, Memory.read, Memory.mem_list]
  · cases v <;> simp [Memory.write, Memory.read, Memory.mem_list, h]

theorem Memory.wf_nil : Memory.wf [] := by simp [Memory.wf]

theorem Memory.pairwise_list {m : Memory} (i : Nat) (h : m.Pairwise (· < ·)) :
    (Memory.list m i).Pairwise (· < ·) := by
  induction m with
  | nil => simp [Memory.list]
  | cons k rest ih =>
    rw [List.pairwise_cons] at h
    unfold Memory.list
    split
    · rename_i hik
      refine List.pairwise_cons.2 ⟨?_, List.pairwise_cons.2 h⟩
      intro j hj
      rcases List.mem_cons.1 hj with rfl | hj
      · exact hik
      · exact lt_trans hik (h.1 j hj)
    · split
      · exact List.pairwise_cons.2 h
      · refine List.pairwise_cons.2 ⟨?_, ih h.2⟩
        intro j hj
        rcases (Memory.mem_list rest i j).1 hj with rfl | hj
        · omega
        · exact h.1 j hj

/-- A write keeps the canonical form. -/
theorem Memory.wf_write {m : Memory} {i : Nat} (v : Bit) (h : Memory.wf m) (hi : i < bvSpaceSize) :
    Memory.wf (Memory.write m i v) := by
  obtain ⟨hp, hb⟩ := h
  cases v with
  | true =>
    refine ⟨Memory.pairwise_list i hp, fun j hj => ?_⟩
    rcases (Memory.mem_list m i j).1 hj with rfl | hj
    · exact hi
    · exact hb j hj
  | false => exact ⟨hp.filter _, fun j hj => hb j (List.mem_of_mem_filter hj)⟩

theorem Memory.read_ofBits (n : Nat) (f : Nat → Bit) (i : Nat) :
    Memory.read (Memory.ofBits n f) i = (decide (i < n) && f i) := by
  rw [Bool.eq_iff_iff]; simp [Memory.read, Memory.ofBits]

/-- A bit space built at once is in canonical form. -/
theorem Memory.wf_ofBits {n : Nat} (f : Nat → Bit) (h : n ≤ bvSpaceSize) : Memory.wf (Memory.ofBits n f) := by
  refine ⟨List.Pairwise.filter _ List.pairwise_lt_range, fun i hi => ?_⟩
  have := List.mem_range.1 (List.mem_of_mem_filter hi)
  omega

@[simp] theorem bvRead_bvWrite (u : BitVectorUnit) (i j : Nat) (v : Bit) :
    bvRead (bvWrite u i v) j = if j = i then v else bvRead u j := Memory.read_write u.bits i j v

@[simp] theorem bvWrite_len (u : BitVectorUnit) (i : Nat) (v : Bit) : (bvWrite u i v).len = max u.len (i + 1) := rfl

@[simp] theorem bvRead_bvOfBytes (q : List Byte) (i : Nat) :
    bvRead (bvOfBytes q) i = (decide (i < 8 * q.length) && byteSequenceBit q i) := Memory.read_ofBits _ _ _

@[simp] theorem bvOfBytes_len (q : List Byte) : (bvOfBytes q).len = 8 * q.length := rfl

/-! ## Bits and bytes -/

/-- The bits of a byte, in line order, assemble to that byte (R50). -/
theorem byteOfBits_bitsMsbFirst (x : Byte) : byteOfBits (bitsMsbFirst x) = x := by
  revert x; decide

@[simp] theorem bitsMsbFirst_length (x : Byte) : (bitsMsbFirst x).length = 8 := rfl

/-- Bit i of a byte that a bit was shifted into (R116). -/
theorem shiftIn_getLsbD (x : Byte) (b : Bit) (i : Nat) (hi : i < 8) :
    (shiftIn x b).getLsbD i = if i = 0 then b else x.getLsbD (i - 1) := by
  revert x b
  interval_cases i <;> decide

theorem byteOfBits_eight (b0 b1 b2 b3 b4 b5 b6 b7 : Bit) (j : Nat) (hj : j < 8) :
    (byteOfBits [b0, b1, b2, b3, b4, b5, b6, b7]).getLsbD (7 - j) =
      [b0, b1, b2, b3, b4, b5, b6, b7].getD j false := by
  revert b0 b1 b2 b3 b4 b5 b6 b7
  interval_cases j <;> decide

/-- Bit `7 - j` of an assembled byte is the j-th bit. -/
theorem byteOfBits_range (f : Nat → Bit) (j : Nat) (hj : j < 8) :
    (byteOfBits ((List.range 8).map f)).getLsbD (7 - j) = f j := by
  have h : (List.range 8).map f = [f 0, f 1, f 2, f 3, f 4, f 5, f 6, f 7] := rfl
  rw [h, byteOfBits_eight _ _ _ _ _ _ _ _ j hj]
  interval_cases j <;> rfl

@[simp] theorem bvBytes_length (u : BitVectorUnit) : (bvBytes u).length = (u.len + 7) / 8 := by simp [bvBytes]

/-- Every bit of the exported bytes is the vector's, and 0 beyond the known length (R75). -/
theorem byteSequenceBit_bvBytes (u : BitVectorUnit) (i : Nat) :
    byteSequenceBit (bvBytes u) i = (decide (i < u.len) && bvRead u i) := by
  have hsplit : 8 * (i / 8) + i % 8 = i := Nat.div_add_mod i 8
  unfold byteSequenceBit
  by_cases h : i / 8 < (u.len + 7) / 8
  · rw [bvBytes, List.getD_eq_getElem?_getD, List.getElem?_map, List.getElem?_range h]
    simp only [Option.map_some, Option.getD_some, bvByte]
    rw [byteOfBits_range _ _ (Nat.mod_lt _ (by decide)), hsplit]
  · have hlen : ¬ i < u.len := by omega
    rw [List.getD_eq_default _ _ (by simpa using h)]
    simp [hlen]

/-- Two byte sequences of one length with the same bits are the same (R32). -/
theorem eq_of_byteSequenceBit {p q : List Byte} (hl : p.length = q.length)
    (h : ∀ i, byteSequenceBit p i = byteSequenceBit q i) : p = q := by
  refine List.ext_getElem hl fun k hp hq => ?_
  refine BitVec.eq_of_getLsbD_eq fun j hj => ?_
  have h' := h (8 * k + (7 - j))
  have hd : (8 * k + (7 - j)) / 8 = k := by omega
  have hm : 7 - (8 * k + (7 - j)) % 8 = j := by omega
  simp only [byteSequenceBit, hd, hm] at h'
  simpa [hp, hq] using h'

end Sys2Proof.Machine
end

