-- ==== Sys2Proof/Laws/Framing.lean ====
section
/-! SUPPORT. The laws of stuffing, chunking, the completion test and the unstuffing walk. -/

namespace Sys2Proof.Machine

variable (cfg : Config)

/-! ## Markers -/

theorem isMarker_iff (b : Byte) : isMarker cfg b = true ↔ b = cfg.start ∨ b = cfg.stop ∨ b = cfg.esc := by
  unfold isMarker classOf
  split_ifs with h1 h2 h3 <;> simp_all

@[simp] theorem isMarker_esc : isMarker cfg cfg.esc = true := (isMarker_iff cfg _).2 (.inr (.inr rfl))

@[simp] theorem isMarker_stop : isMarker cfg cfg.stop = true := (isMarker_iff cfg _).2 (.inr (.inl rfl))

theorem ne_esc_of_not_isMarker {b : Byte} (h : isMarker cfg b = false) : b ≠ cfg.esc := by
  rintro rfl; simp at h

theorem ne_stop_of_not_isMarker {b : Byte} (h : isMarker cfg b = false) : b ≠ cfg.stop := by
  rintro rfl; simp at h

/-! ## Stuffing -/

@[simp] theorem stuff_nil : stuff cfg [] = [] := rfl
@[simp] theorem stuff_cons (b : Byte) (c : List Byte) : stuff cfg (b :: c) = stuffByte cfg b ++ stuff cfg c := rfl

theorem unstuff_esc_cons (e x : Byte) (rest : List Byte) : unstuff e (e :: x :: rest) = x :: unstuff e rest := by
  simp [unstuff]

theorem unstuff_plain_cons {e b : Byte} (h : b ≠ e) (rest : List Byte) :
    unstuff e (b :: rest) = b :: unstuff e rest := by
  cases rest <;> simp [unstuff, h]

/-- The walk undoes stuffing, whatever follows (R47, R104). -/
theorem unstuff_stuff_append (c rest : List Byte) :
    unstuff cfg.esc (stuff cfg c ++ rest) = c ++ unstuff cfg.esc rest := by
  induction c with
  | nil => rfl
  | cons b c ih =>
    rw [stuff_cons, stuffByte]
    split
    · simp [unstuff_esc_cons, ih]
    · rename_i h
      simp [unstuff_plain_cons (ne_esc_of_not_isMarker cfg (by simpa using h)), ih]

/-- Stuffing adds one byte for each marker (30_encoding.md R49). -/
theorem stuff_length (c : List Byte) : (stuff cfg c).length = c.length + c.countP (isMarker cfg) := by
  induction c with
  | nil => rfl
  | cons b c ih =>
    rw [stuff_cons, List.length_append, ih, List.countP_cons, stuffByte, List.length_cons]
    split <;> simp <;> omega

/-! ## Chunks -/

theorem piecesOf_flatten {m : Nat} (hm : 1 ≤ m) (fuel : Nat) (data : List Byte) (h : data.length ≤ fuel) :
    (piecesOf m fuel data).flatten = data := by
  induction fuel generalizing data with
  | zero => simp_all [piecesOf]
  | succ fuel ih =>
    cases data with
    | nil => rfl
    | cons b rest =>
      rw [piecesOf, List.flatten_cons, ih _ (by simp at h ⊢; omega)]
      exact List.take_append_drop _ _

theorem length_le_of_mem_piecesOf {m : Nat} {fuel : Nat} {data c : List Byte} (h : c ∈ piecesOf m fuel data) :
    c.length ≤ m := by
  induction fuel generalizing data with
  | zero => simp [piecesOf] at h
  | succ fuel ih =>
    cases data with
    | nil => simp [piecesOf] at h
    | cons b rest =>
      rcases List.mem_cons.1 h with rfl | h
      · exact List.length_take_le _ _
      · exact ih h

/-- The chunks of a buffer put together are the buffer (42_framing_tx.md R90, R92). -/
theorem chunks_flatten (data : List Byte) :
    (chunks cfg data).flatten = data := by
  unfold chunks
  cases data with
  | nil => simp only; split <;> rfl
  | cons b rest =>
    simp only
    split
    · simp
    · simp
    · exact piecesOf_flatten (PNat.pos _) _ _ le_rfl

/-! ## Completion -/

/-- The completion test on a buffer whose last byte is x (43_framing_rx.md R101). -/
theorem complete_append_singleton (q : List Byte) (x : Byte) :
    complete cfg (q ++ [x]) = true ↔ q ≠ [] ∧ x = cfg.stop ∧ q.getLast? ≠ some cfg.esc := by
  unfold complete
  have h1 : (q ++ [x])[(q ++ [x]).length - 1]? = some x := by simp
  rw [h1]
  cases q using List.reverseRecOn with
  | nil => simp
  | append_singleton p y => simp

theorem complete_nil : complete cfg [] = false := by simp [complete]

/-- Feeding `q` to a receiver whose buffer is `pre` completes no frame on the way. -/
def NoEarlyEnd (pre : List Byte) : List Byte → Prop
  | [] => True
  | x :: q => complete cfg (pre ++ [x]) = false ∧ NoEarlyEnd (pre ++ [x]) q

theorem NoEarlyEnd.append {pre q r : List Byte} :
    NoEarlyEnd cfg pre (q ++ r) ↔ NoEarlyEnd cfg pre q ∧ NoEarlyEnd cfg (pre ++ q) r := by
  induction q generalizing pre with
  | nil => simp [NoEarlyEnd]
  | cons x q ih => simp [NoEarlyEnd, ih, and_assoc]

theorem noEarlyEnd_of_no_stop {pre q : List Byte} (h : cfg.stop ∉ q) : NoEarlyEnd cfg pre q := by
  induction q generalizing pre with
  | nil => trivial
  | cons x q ih =>
    simp only [List.mem_cons, not_or] at h
    refine ⟨?_, ih h.2⟩
    rw [Bool.eq_false_iff, Ne, complete_append_singleton]
    exact fun hc => h.1 hc.2.1.symm

/-- No frame ends inside a stuffed payload (R47, R101): every STOP in it has an ESC just before it. -/
theorem noEarlyEnd_stuff (hne : cfg.stop ≠ cfg.esc) (pre c : List Byte) : NoEarlyEnd cfg pre (stuff cfg c) := by
  induction c generalizing pre with
  | nil => trivial
  | cons b c ih =>
    rw [stuff_cons, NoEarlyEnd.append]
    refine ⟨?_, ih _⟩
    rw [stuffByte]
    split
    · refine ⟨?_, ?_, trivial⟩
      · rw [Bool.eq_false_iff, Ne, complete_append_singleton]
        exact fun hc => hne hc.2.1.symm
      · rw [Bool.eq_false_iff, Ne, complete_append_singleton]
        simp
    · rename_i h
      refine noEarlyEnd_of_no_stop cfg ?_
      have := ne_stop_of_not_isMarker cfg (b := b) (by simpa using h)
      simpa using this.symm

/-! ## The check byte -/

theorem checkByte_eq_zero_or_one (c : List Byte) : checkByte c = 0x00 ∨ checkByte c = 0x01 := by
  unfold checkByte
  rcases Nat.mod_two_eq_zero_or_one (c.map popcount).sum with h | h <;> simp [h]

theorem checkByte_eq_iff (c d : List Byte) :
    checkByte c = checkByte d ↔ (c.map popcount).sum % 2 = (d.map popcount).sum % 2 := by
  unfold checkByte
  rcases Nat.mod_two_eq_zero_or_one (c.map popcount).sum with h | h <;>
    rcases Nat.mod_two_eq_zero_or_one (d.map popcount).sum with g | g <;> simp [h, g]

/-- With an ESC of even popcount the walk keeps the parity of the bytes it walks over (43_framing_rx.md R110(a)). -/
theorem unstuff_parity {e : Byte} (he : popcount e % 2 = 0) (q : List Byte) :
    ((unstuff e q).map popcount).sum % 2 = (q.map popcount).sum % 2 := by
  fun_induction unstuff e q with
  | case1 => rfl
  | case2 => simp [he]
  | case3 b h => simp
  | case4 x rest ih => simp only [List.map_cons, List.sum_cons]; omega
  | case5 b x rest h ih => simp only [List.map_cons, List.sum_cons] at ih ⊢; omega

/-- Flipping one bit of a byte changes its number of 1 bits by one. -/
theorem popcount_flip (x : Byte) (j : Nat) (hj : j < 8) :
    popcount (x ^^^ (1#8 <<< j)) % 2 = (popcount x + 1) % 2 := by
  revert x
  interval_cases j <;> decide

end Sys2Proof.Machine
end

