-- ==== Sys2Proof/Laws/Link.lean ====
section
/-! SUPPORT. What the rules that call each other can do: a principle for properties they keep, the one fault they may
raise, what each of them does on each of its paths, and how bytes cross a perfect medium. -/

namespace Sys2Proof.Machine

/-! ## Properties that the link rules keep -/

/-- P is kept by every update the link rules make, where R are the stations that may receive. -/
structure LinkClosed (R : Station → Prop) (P : State → Prop) : Prop where
  emit : ∀ s e, P s → P (s.emit e)
  fault : ∀ s (c : FaultCode), P s → s.status = 0x00 → P (s.setStatus c.code)
  deserializer : ∀ s st shift n, R st → P s → P (s.setDeserializer st shift n)
  append : ∀ s st x, R st → (s.station st).rxBuf.length ≠ s.cfg.rxBufMax → P s → P (s.appendRx st x)
  clear : ∀ s st, R st → P s → P (s.clearRx st)
  release : ∀ s st, R st → P s → P (s.releaseRx st)
  transfer : ∀ s, P s → P s.afterTransfer

namespace LinkClosed

variable {R : Station → Prop} {P : State → Prop} (h : LinkClosed R P)
include h

theorem raise (c : FaultCode) {s : State} (hs : P s) : P (raiseFault c s).final := by
  refine h.emit _ _ ?_
  split
  · exact h.fault _ _ hs (by assumption)
  · exact hs

theorem netReceive (st : Station) (p : List Byte) {s : State} (hs : P s) :
    P (Machine.netReceive st p s).final := h.emit _ _ hs

theorem processFrame {st : Station} (hr : R st) (q : List Byte) {s : State} (hs : P s) :
    P (Machine.processFrame st q s).final := by
  refine Run.andThen_keeps ?_ fun t ht => ?_
  · unfold startCheck
    split
    · exact hs
    · exact h.raise _ (h.release _ _ hr (h.emit _ _ hs))
  · dsimp only
    split
    · exact h.netReceive _ _ ht
    · unfold acceptParity
      dsimp only
      split
      · exact h.netReceive _ _ ht
      · exact h.emit _ _ ht

theorem receiveByte {st : Station} (hr : R st) (x : Byte) {s : State} (hs : P s) :
    P (Machine.receiveByte st x s).final := by
  unfold Machine.receiveByte
  split
  · exact h.raise _ hs
  · rename_i hlen
    have ha := h.append s st x hr hlen hs
    dsimp only
    split
    · exact Run.andThen_keeps (h.processFrame hr _ ha) fun t ht => h.clear _ _ hr ht
    · exact ha

theorem receiveBit {st : Station} (hr : R st) (b : Bit) {s : State} (hs : P s) :
    P (Machine.receiveBit st b s).final := by
  unfold Machine.receiveBit
  dsimp only
  split
  · split
    · exact h.receiveByte hr _ (h.deserializer _ _ _ _ hr hs)
    · exact h.raise _ (h.deserializer _ _ _ _ hr hs)
  · exact h.deserializer _ _ _ _ hr hs

theorem sendBit {st : Station} (hp : ∀ s r, P s → peer s st = .ok r → R r) (b : Bit) {s : State} (hs : P s) :
    P (Machine.sendBit st b s).final := by
  unfold Machine.sendBit
  split
  · exact h.raise _ hs
  · rename_i r hr
    exact h.receiveBit (hp s r hs hr) _ (h.emit _ _ (h.transfer _ hs))

theorem sendBytes {st : Station} (hp : ∀ s r, P s → peer s st = .ok r → R r) (q : List Byte) {s : State}
    (hs : P s) : P (Machine.sendBytes st q s).final :=
  forEach_keeps (fun x _ ht => forEach_keeps (fun b _ hu => h.sendBit hp b hu) (bitsMsbFirst x) _ ht) q s hs

theorem sendData {st : Station} (hp : ∀ s r, P s → peer s st = .ok r → R r) (data : List Byte) {s : State}
    (hs : P s) : P (Machine.sendData st data s).final := by
  unfold Machine.sendData
  split
  · exact forEach_keeps (fun _ _ ht => h.sendBytes hp _ ht) _ s hs
  · exact h.raise _ hs

theorem sendTestMessages {st : Station} (hp : ∀ s r, P s → peer s st = .ok r → R r) {s : State} (hs : P s) :
    P (Machine.sendTestMessages st s).final := forEach_keeps (fun m _ ht => h.sendData hp m ht) _ s hs

end LinkClosed

/-! ## At most one fault -/

theorem startCheck_faultsOnce (st : Station) (q : List Byte) (s : State) : (startCheck st q s).FaultsOnce s := by
  unfold startCheck
  split
  · exact .done_of rfl [] (by simp) noFault_nil
  · exact raiseFault_faultsOnce _ (by simp) [.diag (.framingError st (q.headD 0x00))] (by simp) (by simp [NoFault])

theorem netReceive_faultsOnce (st : Station) (p : List Byte) (s : State) : (netReceive st p s).FaultsOnce s :=
  .done_of (by simp) [.deliver st p] (by simp) (by simp [NoFault])

theorem processFrame_faultsOnce (st : Station) (q : List Byte) (s : State) : (processFrame st q s).FaultsOnce s := by
  refine (startCheck_faultsOnce st q s).andThen fun t => ?_
  dsimp only
  split
  · exact netReceive_faultsOnce _ _ _
  · unfold acceptParity
    dsimp only
    split
    · exact netReceive_faultsOnce _ _ _
    · exact .done_of (by simp) [_] (by rw [State.emit_trace]) (by simp [NoFault])

/-- A run that starts where another state left status and trace untouched. -/
theorem Run.FaultsOnce.congr {s t : State} {r : Run} (h : r.FaultsOnce t) (hs : t.status = s.status)
    (es : List Event) (ht : t.trace = s.trace ++ es) (he : NoFault es) : r.FaultsOnce s := by
  cases r with
  | done u =>
    obtain ⟨h1, fs, h2, h3⟩ := h
    exact ⟨h1.trans hs, es ++ fs, by rw [h2, ht, List.append_assoc], noFault_append he h3⟩
  | aborted u =>
    obtain ⟨c, fs, h1, h2, h3⟩ := h
    exact ⟨c, es ++ fs, by rw [h1, hs], by rw [h2, ht]; simp, noFault_append he h3⟩

theorem receiveByte_faultsOnce (st : Station) (x : Byte) (s : State) : (receiveByte st x s).FaultsOnce s := by
  unfold receiveByte
  split
  · exact raiseFault_faultsOnce _ rfl [] (by simp) noFault_nil
  · dsimp only
    split
    · refine Run.FaultsOnce.congr ?_ (State.appendRx_status s st x) [] (by simp) noFault_nil
      exact (processFrame_faultsOnce _ _ _).andThen fun t => .done_of (by simp) [] (by simp) noFault_nil
    · exact .done_of (by simp) [] (by simp) noFault_nil

theorem receiveBit_faultsOnce (st : Station) (b : Bit) (s : State) : (receiveBit st b s).FaultsOnce s := by
  unfold receiveBit
  dsimp only
  split
  · split
    · exact (receiveByte_faultsOnce _ _ _).congr (by simp) [] (by simp) noFault_nil
    · exact raiseFault_faultsOnce _ (by simp) [] (by simp) noFault_nil
  · exact .done_of (by simp) [] (by simp) noFault_nil

theorem sendBit_faultsOnce (st : Station) (b : Bit) (s : State) : (sendBit st b s).FaultsOnce s := by
  unfold sendBit
  split
  · exact raiseFault_faultsOnce _ rfl [] (by simp) noFault_nil
  · exact (receiveBit_faultsOnce _ _ _).congr (by simp) [_] (by simp; rfl) (by simp [NoFault])

theorem sendByte_faultsOnce (st : Station) (x : Byte) (s : State) : (sendByte st x s).FaultsOnce s :=
  forEach_faultsOnce (sendBit_faultsOnce st) _ s

theorem sendBytes_faultsOnce (st : Station) (q : List Byte) (s : State) : (sendBytes st q s).FaultsOnce s :=
  forEach_faultsOnce (sendByte_faultsOnce st) _ s

theorem sendData_faultsOnce (st : Station) (data : List Byte) (s : State) : (sendData st data s).FaultsOnce s := by
  unfold sendData
  split
  · exact forEach_faultsOnce (fun c t => sendBytes_faultsOnce st _ t) _ s
  · exact raiseFault_faultsOnce _ rfl [] (by simp) noFault_nil

theorem sendTestMessages_faultsOnce (st : Station) (s : State) : (sendTestMessages st s).FaultsOnce s :=
  forEach_faultsOnce (sendData_faultsOnce st) _ s

theorem registerEndpoint_faultsOnce (st : Station) (s : State) : (registerEndpoint st s).FaultsOnce s := by
  unfold registerEndpoint
  split
  · exact .done_of (by simp) [] (by simp) noFault_nil
  · split
    · exact .done_of (by simp) [] (by simp) noFault_nil
    · exact raiseFault_faultsOnce _ rfl [] (by simp) noFault_nil

theorem bindStation_faultsOnce (st : Station) (s : State) : (bindStation st s).FaultsOnce s := by
  unfold bindStation
  split
  · exact raiseFault_faultsOnce _ rfl [] (by simp) noFault_nil
  · exact .done_of (by simp) [] (by simp) noFault_nil

theorem returnValue_faultsOnce (v : QueryValue) (s : State) : (returnValue v s).FaultsOnce s :=
  .done_of (by simp) [.result v] (by simp) (by simp [NoFault])

/-! ## The peer -/

/-- R81. -/
theorem peer_eq_ok_iff (s : State) (st r : Station) : peer s st = .ok r ↔ PeerIs s st r := by
  unfold peer PeerIs
  by_cases h0 : s.slot0 = some st
  · cases h1 : s.slot1 <;> simp [h0]
  · by_cases h1 : s.slot1 = some st
    · cases h2 : s.slot0 <;> simp_all
    · simp [h0, h1]

/-! ## The halted gate -/

theorem perform_halted (c : Command) (rule : State → Run) {s : State} (h : s.status ≠ 0x00) :
    perform c rule s = .next (s.emit (.refused c)) := by
  simp [perform, (State.halted_iff s).2 h]

theorem perform_running (c : Command) (rule : State → Run) {s : State} (h : s.status = 0x00) :
    perform c rule s = .next (rule s).final := by
  simp [perform, (State.not_halted_iff s).2 h]

/-! ## Byte receive -/

theorem receiveByte_overflow {st : Station} {s : State} (x : Byte)
    (h : (s.station st).rxBuf.length = s.cfg.rxBufMax) :
    receiveByte st x s = raiseFault .capacityRxOverflow s := by simp [receiveByte, h]

theorem receiveByte_accumulates {st : Station} {s : State} {x : Byte}
    (h : (s.station st).rxBuf.length ≠ s.cfg.rxBufMax)
    (hc : complete s.cfg ((s.station st).rxBuf ++ [x]) = false) :
    receiveByte st x s = .done (s.appendRx st x) := by simp [receiveByte, h, hc]

theorem receiveByte_completes {st : Station} {s : State} {x : Byte}
    (h : (s.station st).rxBuf.length ≠ s.cfg.rxBufMax)
    (hc : complete s.cfg ((s.station st).rxBuf ++ [x]) = true) :
    receiveByte st x s =
      (processFrame st ((s.station st).rxBuf ++ [x]) (s.appendRx st x)).andThen fun t => .done (t.clearRx st) := by
  simp [receiveByte, h, hc]

/-- Bytes that end no frame and fit the buffer are kept (R100). -/
theorem receiveBytes_accumulate {st : Station} {s : State} {q : List Byte}
    (hq : NoEarlyEnd s.cfg (s.station st).rxBuf q)
    (hl : (s.station st).rxBuf.length + q.length ≤ s.cfg.rxBufMax) :
    forEach (receiveByte st) q s = .done (s.setRxBuf st ((s.station st).rxBuf ++ q)) := by
  induction q generalizing s with
  | nil => rw [forEach_nil, List.append_nil, State.setRxBuf_self]
  | cons x q ih =>
    simp only [List.length_cons] at hl
    rw [forEach_cons, receiveByte_accumulates (by omega) hq.1, Run.done_andThen, ih]
    · simp [State.appendRx, State.setRxBuf]
    · simpa using hq.2
    · simp; omega

/-- A complete buffer that begins with START, under PARITY (R102, R104, R106). -/
theorem processFrame_parity {st : Station} {s : State} (hv : s.cfg.framing = .parity) (body : List Byte)
    (rc x : Byte) :
    processFrame st (s.cfg.start :: body ++ [rc] ++ [x]) s =
      .done (s.emit (if rc = checkByte (unstuff s.cfg.esc body) then .deliver st (unstuff s.cfg.esc body)
        else .diag (.parityMismatch st (unstuff s.cfg.esc body) rc (checkByte (unstuff s.cfg.esc body))))) := by
  have hb : boundary s.cfg (s.cfg.start :: body ++ [rc] ++ [x]) = body.length + 1 := by simp [boundary, hv]
  have he : extract s.cfg (s.cfg.start :: body ++ [rc] ++ [x]) (body.length + 1) = unstuff s.cfg.esc body := by
    simp [extract]
  have hrc : (s.cfg.start :: body ++ [rc] ++ [x]).getD
      ((s.cfg.start :: body ++ [rc] ++ [x]).length - 2) 0x00 = rc := by
    simp
  unfold processFrame
  have hsc : startCheck st (s.cfg.start :: body ++ [rc] ++ [x]) s = .done s := by simp [startCheck]
  rw [hsc, Run.done_andThen]
  dsimp only
  rw [hv, hb, he]
  simp only [acceptParity, hrc, netReceive]
  split <;> rfl

/-- A complete buffer that begins with START, under SIMPLE (R102, R104, R105). -/
theorem processFrame_simple {st : Station} {s : State} (hv : s.cfg.framing = .simple) (body : List Byte) (x : Byte) :
    processFrame st (s.cfg.start :: body ++ [x]) s = .done (s.emit (.deliver st (unstuff s.cfg.esc body))) := by
  have hb : boundary s.cfg (s.cfg.start :: body ++ [x]) = body.length + 1 := by simp [boundary, hv]
  have he : extract s.cfg (s.cfg.start :: body ++ [x]) (body.length + 1) = unstuff s.cfg.esc body := by
    simp [extract]
  unfold processFrame
  have hsc : startCheck st (s.cfg.start :: body ++ [x]) s = .done s := by simp [startCheck]
  rw [hsc, Run.done_andThen]
  dsimp only
  rw [hv, hb, he]
  rfl

/-! ## Bits and bytes over the medium -/

theorem receiveBit_early {st : Station} {s : State} (b : Bit) (h : (s.station st).rxCount.toNat < 7) :
    receiveBit st b s =
      .done (s.setDeserializer st (shiftIn (s.station st).rxShift b)
        (BitVec.ofNat 3 ((s.station st).rxCount.toNat + 1))) := by
  unfold receiveBit
  dsimp only
  rw [if_neg (by omega)]

theorem receiveBit_eighth {st : Station} {s : State} (b : Bit) (h : (s.station st).rxCount = 7) :
    receiveBit st b s =
      if (s.station st).bound then
        receiveByte st (shiftIn (s.station st).rxShift b) (s.setDeserializer st 0x00 0)
      else raiseFault .cfgNoClient (s.setDeserializer st 0x00 0) := by
  unfold receiveBit
  simp [h]

/-- Eight bits from a byte boundary, whatever they are (R116). -/
theorem receiveBits_eight {st : Station} {s : State} (b7 b6 b5 b4 b3 b2 b1 b0 : Bit)
    (h : (s.station st).rxCount = 0) (hb : (s.station st).bound = true) :
    forEach (receiveBit st) [b7, b6, b5, b4, b3, b2, b1, b0] s =
      receiveByte st ([b7, b6, b5, b4, b3, b2, b1, b0].foldl shiftIn (s.station st).rxShift)
        (s.setDeserializer st 0x00 0) := by
  have hnil : forEach (receiveBit st) [] = Run.done := rfl
  simp [receiveBit, h, hb, State.setDeserializer, hnil, Run.andThen_done]

/-- The shift register keeps nothing of what was in it eight bits before (R116). -/
theorem foldl_shiftIn_bitsMsbFirst (sh x : Byte) : (bitsMsbFirst x).foldl shiftIn sh = x := by
  refine BitVec.eq_of_getLsbD_eq fun i hi => ?_
  simp only [bitsMsbFirst, List.foldl_cons, List.foldl_nil]
  interval_cases i <;> simp [-BitVec.getLsbD_eq_getElem, shiftIn_getLsbD]

/-- Eight bits from a byte boundary are a byte, MSB first (R50, R116). -/
theorem receiveBits_byte {st : Station} {s : State} (x : Byte) (h : (s.station st).rxCount = 0)
    (hb : (s.station st).bound = true) :
    forEach (receiveBit st) (bitsMsbFirst x) s = receiveByte st x (s.setDeserializer st 0x00 0) := by
  have := receiveBits_eight (s := s) (x.getLsbD 7) (x.getLsbD 6) (x.getLsbD 5) (x.getLsbD 4) (x.getLsbD 3)
    (x.getLsbD 2) (x.getLsbD 1) (x.getLsbD 0) h hb
  rwa [show [x.getLsbD 7, x.getLsbD 6, x.getLsbD 5, x.getLsbD 4, x.getLsbD 3, x.getLsbD 2, x.getLsbD 1,
    x.getLsbD 0] = bitsMsbFirst x from rfl, foldl_shiftIn_bitsMsbFirst] at this

/-- One bit over a perfect medium (41_medium.md R82, R83). -/
theorem sendBit_perfect {st r : Station} {s : State} (b : Bit) (hm : s.cfg.medium = .perfect) (hp : PeerIs s st r) :
    sendBit st b s = receiveBit r b (s.emit (.wire st r b b)) := by
  simp [sendBit, (peer_eq_ok_iff s st r).2 hp, State.afterTransfer_perfect s hm, State.deliveredBit_perfect s hm]

@[simp] theorem peer_emit (s : State) (e : Event) (st : Station) : peer (s.emit e) st = peer s st := rfl

@[simp] theorem peer_setDeserializer (s : State) (r : Station) (shift : Byte) (count : BitVec 3) (st : Station) :
    peer (s.setDeserializer r shift count) st = peer s st := by cases r <;> rfl

/-- One byte over a perfect medium, from a byte boundary of a receiver with a client (44_physical.md R117). -/
theorem sendByte_perfect {st r : Station} {s : State} (x : Byte) (hm : s.cfg.medium = .perfect)
    (hp : PeerIs s st r) (h : (s.station r).rxCount = 0) (hb : (s.station r).bound = true) :
    sendByte st x s =
      receiveByte r x ((State.setDeserializer { s with trace := s.trace ++ cleanWires st r (bitsMsbFirst x) } r 0x00 0)) := by
  have hr : peer s st = .ok r := (peer_eq_ok_iff s st r).2 hp
  have hnil : forEach (sendBit st) [] = Run.done := rfl
  have hx := foldl_shiftIn_bitsMsbFirst (s.station r).rxShift x
  unfold sendByte
  unfold bitsMsbFirst at hx ⊢
  simp only [List.foldl_cons, List.foldl_nil] at hx
  simp [-BitVec.getLsbD_eq_getElem, sendBit, hr, State.afterTransfer, State.deliveredBit, perfectBit, hm, receiveBit,
    h, hb, hnil, Run.andThen_done, hx]
  cases r <;> simp [State.setDeserializer, State.setStation, State.emit, State.station, cleanWires]

/-- The state after bytes that a receiver keeps crossed a perfect medium: its buffer, a byte boundary, the wires. -/
def State.afterBytes (s : State) (st r : Station) (shift : Byte) (wired : List Byte) (buf : List Byte)
    (es : List Event) : State :=
  (State.setDeserializer { s with trace := s.trace ++ cleanWires st r (wired.flatMap bitsMsbFirst) ++ es } r
    shift 0).setRxBuf r buf

section
variable (s : State) (st r : Station) (shift : Byte) (wired buf : List Byte) (es : List Event)

@[simp] theorem State.afterBytes_cfg : (s.afterBytes st r shift wired buf es).cfg = s.cfg := by
  simp [State.afterBytes]
@[simp] theorem State.afterBytes_slot0 : (s.afterBytes st r shift wired buf es).slot0 = s.slot0 := by
  simp [State.afterBytes]
@[simp] theorem State.afterBytes_slot1 : (s.afterBytes st r shift wired buf es).slot1 = s.slot1 := by
  simp [State.afterBytes]
@[simp] theorem State.afterBytes_status : (s.afterBytes st r shift wired buf es).status = s.status := by
  simp [State.afterBytes]
@[simp] theorem State.afterBytes_trace : (s.afterBytes st r shift wired buf es).trace =
    s.trace ++ cleanWires st r (wired.flatMap bitsMsbFirst) ++ es := by simp [State.afterBytes]
theorem State.afterBytes_station : (s.afterBytes st r shift wired buf es).station r =
    ⟨(s.station r).bound, shift, 0, buf⟩ := by cases r <;> rfl
theorem State.afterBytes_peerIs (a b : Station) :
    PeerIs (s.afterBytes st r shift wired buf es) a b ↔ PeerIs s a b := by simp [PeerIs]
theorem State.afterBytes_afterBytes (shift' : Byte) (wired' buf' : List Byte) (es' : List Event) (h : es = []) :
    (s.afterBytes st r shift wired buf es).afterBytes st r shift' wired' buf' es' =
      s.afterBytes st r shift' (wired ++ wired') buf' es' := by
  subst h
  cases r <;> simp [State.afterBytes, State.setDeserializer, State.setRxBuf, State.setStation, State.station,
    cleanWires]

end

/-- Bytes that end no frame and fit the buffer, over a perfect medium (44_physical.md R117). -/
theorem sendBytes_accumulate {st r : Station} {s : State} (q : List Byte) (hm : s.cfg.medium = .perfect)
    (hp : PeerIs s st r) (h : (s.station r).rxCount = 0) (hb : (s.station r).bound = true)
    (hq : NoEarlyEnd s.cfg (s.station r).rxBuf q)
    (hl : (s.station r).rxBuf.length + q.length ≤ s.cfg.rxBufMax) :
    sendBytes st q s =
      .done (s.afterBytes st r (if q = [] then (s.station r).rxShift else 0x00) q ((s.station r).rxBuf ++ q) []) := by
  induction q generalizing s with
  | nil =>
    have : s.afterBytes st r (s.station r).rxShift [] (s.station r).rxBuf [] = s := by
      obtain ⟨_, _, _, _, ⟨_, _, _, _⟩, ⟨_, _, _, _⟩, _⟩ := s
      cases r <;> simp_all [State.afterBytes, State.setDeserializer, State.setRxBuf, State.setStation, State.station,
        cleanWires]
    simp [sendBytes, this]
  | cons x q ih =>
    simp only [List.length_cons] at hl
    have hstep : sendByte st x s = .done (s.afterBytes st r 0x00 [x] ((s.station r).rxBuf ++ [x]) []) := by
      rw [sendByte_perfect x hm hp h hb, receiveByte_accumulates]
      · cases r <;> simp [State.afterBytes, State.setDeserializer, State.appendRx, State.setRxBuf, State.setStation,
          State.station]
      · cases r <;> simp [State.setDeserializer, State.setStation, State.station] at hl ⊢ <;> omega
      · have := hq.1
        cases r <;> simpa [State.setDeserializer, State.setStation, State.station] using this
    have hs' := State.afterBytes_station s st r 0x00 [x] ((s.station r).rxBuf ++ [x]) []
    have := ih (s := s.afterBytes st r 0x00 [x] ((s.station r).rxBuf ++ [x]) []) (by simpa using hm)
      ((State.afterBytes_peerIs ..).2 hp) (by rw [hs']) (by rw [hs']; exact hb)
      (by rw [hs']; simpa using hq.2) (by rw [hs']; simp; omega)
    unfold sendBytes at this ⊢
    rw [forEach_cons, hstep, Run.done_andThen, this, hs', State.afterBytes_afterBytes _ _ _ _ _ _ _ _ _ _ _ rfl]
    simp

theorem sendBytes_append (st : Station) (p q : List Byte) (s : State) :
    sendBytes st (p ++ q) s = (sendBytes st p s).andThen (sendBytes st q) := forEach_append _ _ _ _

/-- DL_SEND sends the bytes of its frames, in chunk order (42_framing_tx.md R94). -/
theorem sendData_bound {st : Station} {s : State} (data : List Byte) (hb : (s.station st).bound = true) :
    sendData st data s = sendBytes st ((chunks s.cfg data).flatMap (frame s.cfg)) s := by
  unfold sendData
  rw [if_pos hb]
  exact forEach_forEach _ _ _ _

/-- The last byte of a frame, after bytes the receiver kept, over a perfect medium. -/
theorem sendBytes_frame {st r : Station} {s : State} (q : List Byte) (x : Byte) (e : Event)
    (hm : s.cfg.medium = .perfect) (hp : PeerIs s st r) (h : (s.station r).rxCount = 0)
    (hb : (s.station r).bound = true) (he : (s.station r).rxBuf = []) (hq : NoEarlyEnd s.cfg [] q) (hne : q ≠ [])
    (hx : complete s.cfg (q ++ [x]) = true) (hl : q.length < s.cfg.rxBufMax)
    (hf : ∀ t : State, t.cfg = s.cfg → processFrame r (q ++ [x]) t = .done (t.emit e)) :
    sendBytes st (q ++ [x]) s = .done (s.afterBytes st r 0x00 (q ++ [x]) [] [e]) := by
  have hacc := sendBytes_accumulate (st := st) (r := r) (s := s) q hm hp h hb (by simpa [he] using hq)
    (by simp [he]; omega)
  rw [if_neg hne, he, List.nil_append] at hacc
  have hs' := State.afterBytes_station s st r 0x00 q q []
  rw [sendBytes_append, hacc, Run.done_andThen]
  unfold sendBytes
  rw [forEach_cons, sendByte_perfect x (by simpa using hm) ((State.afterBytes_peerIs ..).2 hp) (by rw [hs'])
    (by rw [hs']; exact hb)]
  generalize hu : State.setDeserializer { s.afterBytes st r 0x00 q q [] with
    trace := (s.afterBytes st r 0x00 q q []).trace ++ cleanWires st r (bitsMsbFirst x) } r 0x00 0 = u
  have hcfg : u.cfg = s.cfg := by simp [← hu]
  have hbuf : (u.station r).rxBuf = q := by
    rw [← hu, State.setDeserializer_same]
    exact congrArg StationState.rxBuf hs'
  rw [receiveByte_completes (by rw [hbuf, hcfg]; omega) (by rw [hbuf, hcfg]; exact hx), hbuf,
    hf _ (by simp [hcfg])]
  subst hu
  cases r <;> simp [State.afterBytes, State.setDeserializer, State.appendRx, State.clearRx, State.setRxBuf,
    State.setStation, State.station, State.emit, cleanWires]

end Sys2Proof.Machine
end

