-- ==== Sys2Proof/Laws/Noise.lean ====
section
/-! SUPPORT. The burst counter's small laws (41_medium.md R84, R85; 10_state.md R15). -/

namespace Sys2Proof.Machine

theorem inBurst_iff (c : BitVec 8) (d : Draw) :
    inBurst c d = true ↔ 0 < c.toInt ∨ (c = 0 ∧ d.startHit = true) := by simp [inBurst]

theorem noisyBit_of_inBurst {c : BitVec 8} {d : Draw} (h : inBurst c d = true) (b : Bit) :
    noisyBit c d b = (b ^^ d.flipHit) := by
  cases hf : d.flipHit <;> simp [noisyBit, h, hf]

theorem noisyBit_of_not_inBurst {c : BitVec 8} {d : Draw} (h : inBurst c d = false) (b : Bit) :
    noisyBit c d b = b := by simp [noisyBit, h]

theorem burstNext_of_inBurst {m : Nat} {c : BitVec 8} {d : Draw} (h : inBurst c d = true) :
    burstNext m c d = if (c + 1).toInt = m then -1 else c + 1 := by simp [burstNext, h]

theorem burstNext_of_not_inBurst {m : Nat} {c : BitVec 8} {d : Draw} (h : inBurst c d = false) :
    burstNext m c d = 0 := by simp [burstNext, h]

/-- The counter counts up without wrapping below 127. -/
theorem toInt_add_one {c : BitVec 8} (h : c.toInt < 127) : (c + 1).toInt = c.toInt + 1 := by
  have := BitVec.le_toInt c
  rw [BitVec.toInt_add]
  simp only [BitVec.reduceToInt, Int.bmod]
  omega

/-- In a burst the counter is at least 0, so the transfer takes it to at least 1. -/
theorem toInt_nonneg_of_inBurst {c : BitVec 8} {d : Draw} (h : inBurst c d = true) : 0 ≤ c.toInt := by
  rcases (inBurst_iff c d).1 h with h | ⟨rfl, -⟩
  · omega
  · decide

/-- R15: from a counter in range, a transfer leaves it in range. -/
theorem burstNext_range {m : Nat} (h1 : 1 ≤ m) (h127 : m ≤ 127) {c : BitVec 8} (d : Draw)
    (hhi : c.toInt ≤ (m : Int) - 1) :
    -1 ≤ (burstNext m c d).toInt ∧ (burstNext m c d).toInt ≤ (m : Int) - 1 := by
  cases hb : inBurst c d with
  | false => rw [burstNext_of_not_inBurst hb]; simp; omega
  | true =>
    have h0 := toInt_nonneg_of_inBurst hb
    have hs := toInt_add_one (c := c) (by omega)
    rw [burstNext_of_inBurst hb]
    split
    · simp; omega
    · omega

/-! ## The law of the draws -/

/-- R86: a uniform sample is in [0,1). -/
theorem sampleValue_mem (u : UniformSample) : sampleValue u ∈ Set.Ico (0 : ℚ) 1 := by
  refine ⟨by unfold sampleValue; positivity, ?_⟩
  unfold sampleValue
  rw [div_lt_one (by positivity)]
  exact_mod_cast u.num.isLt

/-- R5: a probability of the configuration is one real number. -/
theorem probabilityIs_existsUnique (p : Probability) : ∃! x, ProbabilityIs p x := by
  cases p <;> exact ⟨_, rfl, fun _ h => h⟩

/-- R5: that number is in [0,1]. -/
theorem probabilityIs_mem {p : Probability} {x : ℝ} (h : ProbabilityIs p x) : x ∈ Set.Icc (0 : ℝ) 1 := by
  cases p with
  | fraction below num =>
    have hn : ((num : ℕ) : ℝ) ≤ below + 1 := by
      have h : (num : ℕ) ≤ below + 1 := by omega
      exact_mod_cast h
    rw [show x = (num : ℕ) / ((below : ℝ) + 1) from h]
    exact ⟨by positivity, div_le_one_of_le₀ hn (by positivity)⟩
  | real name =>
    rw [show x = Real.ofDigits (Config.realDigit name) from h]
    exact ⟨Real.ofDigits_nonneg _, Real.ofDigits_le_one _⟩

/-- R5: no real in [0,1] is shut out: each is the value of some digits a name may have. -/
theorem exists_digits {x : ℝ} (h : x ∈ Set.Icc (0 : ℝ) 1) : ∃ digits : ℕ → Fin 2, x = Real.ofDigits digits := by
  obtain ⟨digits, -, hd⟩ := Real.ofDigits_SurjOn one_lt_two h
  exact ⟨digits, hd.symm⟩

/-- The test for a fraction decides it. -/
theorem fractionHits_decides (below : ℕ) (num : Fin (below + 2)) :
    DecidesHits (fun u => (sampleValue u : ℝ)) (.fraction below num) (fractionHits below num) := by
  intro x hx u
  rw [show x = (num : ℕ) / ((below : ℝ) + 1) from hx]
  simp only [fractionHits, sampleValue, decide_eq_true_iff]
  push_cast
  rw [div_lt_div_iff₀ (by positivity) (by positivity)]
  exact_mod_cast Iff.rfl

/-- Under ALWAYS a draw takes two samples and follows the source's law (R86), whatever reals the configuration holds. -/
theorem drawFromSamples_always {α : Type} {value : α → ℝ} {start flip : α → Bit} {cfg : Config}
    (hs : DecidesHits value cfg.pStart start) (hf : DecidesHits value cfg.pErr flip) {c : BitVec 8} {us rest : List α}
    {d : Draw} (h : drawFromSamples start flip .always c us = some (d, rest)) :
    ∃ u u', us = u :: u' :: rest ∧ DrawLaw cfg (value u) (value u') d := by
  match us, h with
  | u :: u' :: tail, h =>
    obtain ⟨rfl, rfl⟩ : (⟨start u, flip u'⟩ : Draw) = d ∧ tail = rest := by simpa [drawFromSamples] using h
    exact ⟨u, u', rfl, fun x y hx hy => ⟨hs x hx u, hf y hy u'⟩⟩

/-- Under SHORT_CIRCUIT what a draw consumes and gives: StartHit's sample only with the counter at 0, then FlipHit's only
in a burst (R86). -/
theorem drawFromSamples_shortCircuit {α : Type} {start flip : α → Bit} {c : BitVec 8} {us rest : List α} {d : Draw}
    (h : drawFromSamples start flip .shortCircuit c us = some (d, rest)) :
    ∃ us', (if c = 0 then ∃ u, us = u :: us' ∧ d.startHit = start u else us = us' ∧ d.startHit = false) ∧
      if inBurst c d then ∃ u', us' = u' :: rest ∧ d.flipHit = flip u' else us' = rest ∧ d.flipHit = false := by
  simp only [drawFromSamples, Option.bind_eq_some_iff] at h
  obtain ⟨⟨sh, us'⟩, h1, h2⟩ := h
  have key : d.startHit = sh ∧
      if inBurst c d then ∃ u', us' = u' :: rest ∧ d.flipHit = flip u' else us' = rest ∧ d.flipHit = false := by
    split at h2
    next hin =>
      match us', h2 with
      | u' :: tail, h2 =>
        obtain ⟨rfl, rfl⟩ : (⟨sh, flip u'⟩ : Draw) = d ∧ tail = rest := by simpa using h2
        have hin : inBurst c ⟨sh, flip u'⟩ = true := hin
        exact ⟨rfl, by rw [if_pos hin]; exact ⟨u', rfl, rfl⟩⟩
    next hin =>
      obtain ⟨rfl, rfl⟩ : (⟨sh, false⟩ : Draw) = d ∧ us' = rest := by simpa using h2
      have hin : ¬ inBurst c ⟨sh, false⟩ = true := hin
      exact ⟨rfl, by rw [if_neg hin]; exact ⟨rfl, rfl⟩⟩
  refine ⟨us', ?_, key.2⟩
  rw [key.1]
  split at h1
  next hc =>
    match us, h1 with
    | u :: tail, h1 =>
      obtain ⟨rfl, rfl⟩ : start u = sh ∧ tail = us' := by simpa using h1
      rw [if_pos hc]
      exact ⟨u, rfl, rfl⟩
  next hc =>
    obtain ⟨rfl, rfl⟩ : false = sh ∧ us = us' := by simpa using h1
    rw [if_neg hc]
    exact ⟨rfl, rfl⟩

end Sys2Proof.Machine
end

