-- ==== Sys2Proof/Machine/Assembly.lean ====
section
/-! DEFINITION. The assembler text of 30_encoding.md R62 and the pseudo-instruction BOOT of R63: writing an instruction as
its line, and reading a program's lines. No other file of the model uses it. What R62 does not settle about spaces and
characters is log 18. -/

namespace Sys2Proof.Machine

/-! ## Writing -/

/-- A station as `0` or `1` (R62). -/
def stationText : Station → String
  | .st0 => "0"
  | .st1 => "1"

/-- A bit as `0` or `1` (R62). -/
def bitText : Bit → String
  | false => "0"
  | true => "1"

/-- One hexadecimal digit. -/
def hexDigitText (n : Nat) : String := String.ofList [(("0123456789ABCDEF".toList)[n]?).getD '0']

/-- A byte as `0xHH` (R62). -/
def byteText (x : Byte) : String := "0x" ++ hexDigitText (x.toNat / 16) ++ hexDigitText (x.toNat % 16)

/-- A data sequence as `[0xHH, 0xHH, ...]` (R62). -/
def dataText (q : List Byte) : String := "[" ++ String.intercalate ", " (q.map byteText) ++ "]"

/-- A 32-bit integer in signed decimal (R62). -/
def integerText (v : BitVec 32) : String :=
  match v.toInt with
  | .ofNat n => n.repr
  | .negSucc n => "-" ++ (n + 1).repr

/-- The line of an instruction (R62). -/
def lineText : Instr → String
  | .reset => "RESET"
  | .rdStatus => "RD_STATUS"
  | .medRegister s => "MED_REGISTER " ++ stationText s
  | .medSend s b => "MED_SEND " ++ stationText s ++ ", " ++ bitText b
  | .phySend s data => "PHY_SEND " ++ stationText s ++ ", " ++ dataText data
  | .phyReceive s b => "PHY_RECEIVE " ++ stationText s ++ ", " ++ bitText b
  | .dlBind s => "DL_BIND " ++ stationText s
  | .dlSend s data => "DL_SEND " ++ stationText s ++ ", " ++ dataText data
  | .dlReceive s x => "DL_RECEIVE " ++ stationText s ++ ", " ++ byteText x
  | .bvNew => "BV_NEW"
  | .bvFromBytes data first last =>
    "BV_FROM_BYTES " ++ dataText data ++ ", " ++ integerText first ++ ", " ++ integerText last
  | .bvSet index b => "BV_SET " ++ integerText index ++ ", " ++ bitText b
  | .bvGet index => "BV_GET " ++ integerText index
  | .bvLen => "BV_LEN"
  | .bvToBytes => "BV_TO_BYTES"
  | .netSend s => "NET_SEND " ++ stationText s

/-! ## Reading -/

/-- The double quote that stands around text data. -/
def quoteChar : Char := Char.ofNat 34

/-- Where a reader of a line stands: commas and comments count only outside a list and a text. -/
inductive TextMode where
  | plain
  | list
  | text
deriving DecidableEq, Repr

/-- The mode after a character. -/
def TextMode.after (m : TextMode) (c : Char) : TextMode :=
  match m with
  | .plain => if c = '[' then .list else if c = quoteChar then .text else .plain
  | .list => if c = ']' then .plain else .list
  | .text => if c = quoteChar then .plain else .text

/-- The pieces of a line between separators that stand outside lists and texts. -/
def splitOutside (sep : Char) (m : TextMode) (piece : List Char) : List Char → List (List Char)
  | [] => [piece.reverse]
  | c :: rest =>
    if m = .plain ∧ c = sep then piece.reverse :: splitOutside sep .plain [] rest
    else splitOutside sep (m.after c) (c :: piece) rest

/-- Without the white space at both ends: spaces, tabs and carriage returns. DESIGN CHOICE (log 18): R62 does not say
which characters may stand around a line, a mnemonic, an operand or a list item. -/
def trimSpaces (l : List Char) : List Char :=
  ((l.dropWhile Char.isWhitespace).reverse.dropWhile Char.isWhitespace).reverse

/-- A line without its comment: `;` starts a comment to the end of the line (R62). -/
def withoutComment (line : List Char) : List Char := (splitOutside ';' .plain [] line).headD []

/-- A decimal digit's value. -/
def decimalDigit (c : Char) : Option Nat := if c.isDigit then some (c.toNat - 48) else none

/-- A hexadecimal digit's value. -/
def hexDigit (c : Char) : Option Nat :=
  if c.isDigit then some (c.toNat - 48)
  else if 65 ≤ c.toNat ∧ c.toNat ≤ 70 then some (c.toNat - 55)
  else if 97 ≤ c.toNat ∧ c.toNat ≤ 102 then some (c.toNat - 87)
  else none

/-- Digits as a number; none where there is no digit. -/
def decimalNumber (l : List Char) : Option Nat :=
  match l with
  | [] => none
  | _ => (l.mapM decimalDigit).map fun ds => ds.foldl (fun acc d => 10 * acc + d) 0

/-- A station operand. -/
def parseStation (l : List Char) : Option Station :=
  match l with
  | ['0'] => some .st0
  | ['1'] => some .st1
  | _ => none

/-- A bit operand. -/
def parseBit (l : List Char) : Option Bit :=
  match l with
  | ['0'] => some false
  | ['1'] => some true
  | _ => none

/-- A byte operand, `0xHH`. -/
def parseByte (l : List Char) : Option Byte :=
  match l with
  | ['0', 'x', h, d] => (hexDigit h).bind fun h => (hexDigit d).map fun d => BitVec.ofNat 8 (16 * h + d)
  | _ => none

/-- A 32-bit integer in signed decimal; none outside -2^31..2^31-1 (R57). -/
def parseInteger (l : List Char) : Option (BitVec 32) :=
  match l with
  | '-' :: ds => (decimalNumber ds).bind fun n => if n ≤ 2 ^ 31 then some (BitVec.ofInt 32 (-n)) else none
  | ds => (decimalNumber ds).bind fun n => if n < 2 ^ 31 then some (BitVec.ofNat 32 n) else none

/-- One character of a text as its ASCII byte. -/
def asciiByte (c : Char) : Option Byte := if c.toNat < 128 then some (BitVec.ofNat 8 c.toNat) else none

/-- A data operand: `[0xHH, 0xHH, ...]`, or the ASCII bytes of a quoted text (R62). DESIGN CHOICE (log 18): a
text ends at the next double quote, so one with a double quote inside it is no operand. -/
def parseData (l : List Char) : Option (List Byte) :=
  match l with
  | [] => none
  | c :: rest =>
    let inner := rest.dropLast
    if c = '[' ∧ rest.getLast? = some ']' then
      if trimSpaces inner = [] then some []
      else ((splitOutside ',' .plain [] inner).map trimSpaces).mapM parseByte
    else if c = quoteChar ∧ rest.getLast? = some quoteChar ∧ quoteChar ∉ inner then inner.mapM asciiByte
    else none

/-- The instructions of a mnemonic and its operand texts; BOOT stands for five of them (R63). -/
def parseCommand (mnemonic : String) (operands : List (List Char)) : Option (List Instr) :=
  match mnemonic, operands with
  | "RESET", [] => some [.reset]
  | "RD_STATUS", [] => some [.rdStatus]
  | "MED_REGISTER", [s] => (parseStation s).map fun s => [.medRegister s]
  | "MED_SEND", [s, b] => (parseStation s).bind fun s => (parseBit b).map fun b => [.medSend s b]
  | "PHY_SEND", [s, d] => (parseStation s).bind fun s => (parseData d).map fun d => [.phySend s d]
  | "PHY_RECEIVE", [s, b] => (parseStation s).bind fun s => (parseBit b).map fun b => [.phyReceive s b]
  | "DL_BIND", [s] => (parseStation s).map fun s => [.dlBind s]
  | "DL_SEND", [s, d] => (parseStation s).bind fun s => (parseData d).map fun d => [.dlSend s d]
  | "DL_RECEIVE", [s, x] => (parseStation s).bind fun s => (parseByte x).map fun x => [.dlReceive s x]
  | "BV_NEW", [] => some [.bvNew]
  | "BV_FROM_BYTES", [d, b, e] =>
    (parseData d).bind fun d => (parseInteger b).bind fun b => (parseInteger e).map fun e => [.bvFromBytes d b e]
  | "BV_SET", [i, b] => (parseInteger i).bind fun i => (parseBit b).map fun b => [.bvSet i b]
  | "BV_GET", [i] => (parseInteger i).map fun i => [.bvGet i]
  | "BV_LEN", [] => some [.bvLen]
  | "BV_TO_BYTES", [] => some [.bvToBytes]
  | "NET_SEND", [s] => (parseStation s).map fun s => [.netSend s]
  | "BOOT", [] => some boot
  | _, _ => none

/-- The instructions of one line; none where the line is no command. -/
def assembleLine (line : List Char) : Option (List Instr) :=
  let body := trimSpaces (withoutComment line)
  let mnemonic := body.takeWhile fun c => !c.isWhitespace
  let operands := trimSpaces (body.drop mnemonic.length)
  if body = [] then some []
  else parseCommand (String.ofList mnemonic)
    (if operands = [] then [] else (splitOutside ',' .plain [] operands).map trimSpaces)

/-- The instructions of a program, one command a line (R62). -/
def assemble (text : String) : Option (List Instr) :=
  ((text.toList.splitOn '\n').mapM assembleLine).map List.flatten

end Sys2Proof.Machine
end

