-- ==== Sys2Proof/Tests/Slice0.lean ====
section
/-! SUPPORT. The model's own tests. Expected values are those of spec/95_test_vectors.md or of the worked examples of the
rule named in each comment. A `witness_…` theorem shows that the hypotheses of the obligation it is named after can be
met, one conjunct a clause, at the edges of the clause's range. -/

namespace Sys2Proof.Tests

open Sys2Proof.Machine

/-- The state after BOOT, under the named variants (95_test_vectors.md). -/
def booted (v : FramingVariant) (m : MediumVariant) : State :=
  { State.powerOn (Config.ofVariants v m) with
    slot0 := some .st0, slot1 := some .st1
    station0 := { StationState.reset with bound := true }
    station1 := { StationState.reset with bound := true } }

/-- PARITY over the perfect medium, after BOOT. -/
abbrev p0 : State := booted .parity .perfect

/-- Station 1's receive side of `p0` holds these bytes, under a buffer bound. -/
def holding (v : FramingVariant) (bound : Nat) (q : List Byte) : State :=
  let s := booted v .perfect
  { s with cfg := { s.cfg with rxBufMax := bound }, station1 := { s.station1 with rxBuf := q } }

/-- Station 1's deserializer has taken `n` bits of the byte that `x` ends with. -/
def shifting (s : State) (x : Byte) (n : BitVec 3) : State :=
  { s with station1 := { s.station1 with rxShift := x, rxCount := n } }

/-- The state an outcome goes on with, if it does. -/
def after (o : Host.Outcome State Fault Refusal) : Option State :=
  match o with
  | .next t => some t
  | .fault _ => none
  | .refused _ => none

/-- The events a command adds to an empty trace. -/
def events (o : Host.Outcome State Fault Refusal) : List Event := ((after o).map State.trace).getD []

/-! ## Well-formedness -/

theorem test_phySend_too_long : ¬ WellFormed (.phySend .st0 (List.replicate 65536 0x00)) := by
  simp only [WellFormed, Instr.dataBytes, maxDataBytes, List.length_replicate]
  omega

theorem test_dlSend_too_long : ¬ WellFormed (.dlSend .st1 (List.replicate 65536 0x00)) := by
  simp only [WellFormed, Instr.dataBytes, maxDataBytes, List.length_replicate]
  omega

theorem test_bvFromBytes_too_long : ¬ WellFormed (.bvFromBytes (List.replicate 65536 0x00) 0 1) := by
  simp only [WellFormed, Instr.dataBytes, maxDataBytes, List.length_replicate]
  omega

/-! ## Decoding: one word per constructor, written out from the formats of R56, the fields of R57, the map of R58 -/

theorem test_decode_reset : decode [0x01] = .command .reset [] := by decide
theorem test_decode_rdStatus : decode [0x02] = .command .rdStatus [] := by decide
theorem test_decode_medRegister : decode [0x10, 0x01] = .command (.medRegister .st1) [] := by decide
/-- R64. -/
theorem test_decode_medSend : decode [0x11, 0x01, 0x01] = .command (.medSend .st1 true) [] := by decide
/-- PHY-1. -/
theorem test_decode_phySend : decode [0x20, 0x00, 0x00, 0x04, 0x7B, 0x41, 0x00, 0x7D] =
    .command (.phySend .st0 [0x7B, 0x41, 0x00, 0x7D]) [] := by decide
/-- ENC-6. -/
theorem test_decode_phyReceive : decode [0x21, 0x01, 0x00] = .command (.phyReceive .st1 false) [] := by decide
theorem test_decode_dlBind : decode [0x30, 0x00, 0x02] = .command (.dlBind .st0) [0x02] := by decide
/-- R64, with LEN16's low byte second. -/
theorem test_decode_dlSend : decode [0x31, 0x00, 0x00, 0x03, 0x61, 0x62, 0x63] =
    .command (.dlSend .st0 [0x61, 0x62, 0x63]) [] := by decide
/-- R64. -/
theorem test_decode_dlReceive : decode [0x32, 0x01, 0x7D] = .command (.dlReceive .st1 0x7D) [] := by decide
theorem test_decode_bvNew : decode [0x40] = .command .bvNew [] := by decide
/-- P6, with what follows it in the stream. -/
theorem test_decode_bvFromBytes : decode [0x41, 0x00, 0x02, 0xA5, 0x0F, 0, 0, 0, 0, 0, 0, 0, 2, 0x42] =
    .command (.bvFromBytes [0xA5, 0x0F] 0 2) [0x42] := by decide
/-- R64: the index is -1. -/
theorem test_decode_bvSet : decode [0x42, 0xFF, 0xFF, 0xFF, 0xFF, 0x01] = .command (.bvSet (-1) true) [] := by decide
/-- ENC-5: the index is 1000. -/
theorem test_decode_bvGet : decode [0x43, 0x00, 0x00, 0x03, 0xE8] = .command (.bvGet 1000) [] := by decide
theorem test_decode_bvLen : decode [0x44] = .command .bvLen [] := by decide
theorem test_decode_bvToBytes : decode [0x45] = .command .bvToBytes [] := by decide
/-- SYS-8. -/
theorem test_decode_netSend : decode [0x50, 0x00] = .command (.netSend .st0) [] := by decide

/-- ENC-8, ENC-9, ENC-10, ENC-12: what the illegal command consumes. -/
theorem test_decode_illegal : decode [0x03, 0x02] = .illegal [0x02] ∧ decode [0x10, 0x02, 0x02] = .illegal [0x02] ∧
    decode [0x11, 0x00, 0x02, 0x02] = .illegal [0x02] ∧ decode [0x00] = .illegal [] := by decide
/-- ENC-11. -/
theorem test_decode_truncated : decode [0x31, 0x00, 0x00, 0x05, 0x61, 0x62] = .truncated := by decide

/-- The table's words: bit 0 is the low bit of byte 0; operand bytes above the word are zero. -/
theorem test_decodeTableWord : decodeTableWord 8 0x01 = some .reset ∧
    decodeTableWord 16 0x0110 = some (.medRegister .st1) ∧ decodeTableWord 24 0x7D0132 = some (.dlReceive .st1 0x7D) ∧
    decodeTableWord 8 0x31 = some (.dlSend .st0 []) ∧ decodeTableWord 8 0x41 = some (.bvFromBytes [] 0 0) ∧
    decodeTableWord 16 0x0210 = none ∧ decodeTableWord 8 0x03 = none := by decide

/-- The placed command is the next one the step takes. -/
theorem test_withFetchWord : after (step (State.reset.withFetchWord 16 0x0110)) =
    some { State.reset with slot0 := some .st1 } := by decide

/-! ## The assembler text (R62, R64) -/

theorem test_assemble_dlSend : assemble "DL_SEND 0, \"abc\"" = some [.dlSend .st0 [0x61, 0x62, 0x63]] := by decide
theorem test_assemble_bvSet : assemble "BV_SET -1, 1 ; set" = some [.bvSet (-1) true] := by decide
theorem test_lineText_bvFromBytes : lineText (.bvFromBytes [0xA5] 0 1) = "BV_FROM_BYTES [0xA5], 0, 1" := by decide

/-- Log 18: a text ends at the next double quote, and a line may end in a carriage return. -/
theorem test_assemble_log18 : assemble "PHY_SEND 0, \"a\"b\"" = none ∧ assemble "BV_LEN\r\nBV_NEW" = some [.bvLen, .bvNew] := by
  decide

/-! ## Reset -/

/-- R150. -/
theorem test_reset_wf : Memory.wf State.reset.bv.bits := by decide

/-- R150; reset keeps the invariant's conditions. -/
theorem reset_inv : Inv State.reset where
  slots h := absurd rfl h
  burst := by unfold BurstInRange; decide
  rx st := by cases st <;> decide
  status := .inl rfl
  bv := ⟨by decide, fun _ _ => rfl, by decide⟩

/-! ## One step of each instruction -/

/-- SYS-6: RESET of a halted engine. -/
theorem test_reset : after (exec .reset { p0 with status := 0x10, burst := 3 }) =
    some (State.powerOn (Config.ofVariants .parity .perfect)) := by decide
/-- SYS-3. -/
theorem test_rdStatus : events (exec .rdStatus { p0 with status := 0x10 }) = [.result (.status 0x10)] := by decide
/-- MED-1. -/
theorem test_medRegister : after (exec (.medRegister .st0) { State.reset with slot0 := some .st1 }) =
    some { State.reset with slot0 := some .st1, slot1 := some .st0 } := by decide
/-- MED-2. -/
theorem test_medRegister_full : (after (exec (.medRegister .st0) p0)).map State.status = some 0x10 := by decide
/-- MED-5. -/
theorem test_medSend : after (exec (.medSend .st0 true) p0) =
    some { shifting p0 0x01 1 with trace := [.wire .st0 .st1 true true] } := by decide
/-- MED-8, first transfer: with `MAX_BURST = 1` the burst ends at once. -/
theorem test_medSend_noisy :
    (after (exec (.medSend .st0 false) { booted .parity .noisy with
      cfg := { Config.ofVariants .parity .noisy with maxBurst := 1 }, draws := [⟨true, true⟩] })).map
        (fun t => (t.trace, t.burst)) = some ([.wire .st0 .st1 false true], 0xFF) := by decide
/-- PHY-5. -/
theorem test_phySend : (after (exec (.phySend .st0 [0xA0]) p0)).map (fun t => (t.station1.rxBuf, t.trace)) =
    some ([0xA0], cleanWires .st0 .st1 [true, false, true, false, false, false, false, false]) := by decide
/-- PHY-3. -/
theorem test_phySend_noClient : (after (exec (.phySend .st0 [0x7B])
    { p0 with station1 := StationState.reset })).map (fun t => (t.status, t.station1.rxCount)) = some (0x15, 0) := by
  decide
/-- PHY-4. -/
theorem test_phyReceive : after (exec (.phyReceive .st1 true) p0) = some (shifting p0 0x01 1) := by decide
/-- R116, the example's last bit: 0x3D and a 1 make 0x7B. -/
theorem test_phyReceive_eighth : (after (exec (.phyReceive .st1 true) (shifting p0 0x3D 7))).map State.station1 =
    some { p0.station1 with rxBuf := [0x7B] } := by decide
/-- SYS-1. -/
theorem test_dlBind : (after (exec (.dlBind .st0) State.reset)).map (fun t => t.station0.bound) = some true := by decide
theorem test_dlBind_again : (after (exec (.dlBind .st0) p0)).map State.status = some 0x14 := by decide
/-- R96, TX-2: the payload "hi", check byte 1. -/
theorem test_dlSend : deliveries (events (exec (.dlSend .st0 [0x68, 0x69]) p0)) = [(.st1, [0x68, 0x69])] ∧
    frame p0.cfg [0x68, 0x69] = [0x7B, 0x68, 0x69, 0x01, 0x7D] := by decide
/-- TX-14. -/
theorem test_dlSend_unbound : events (exec (.dlSend .st0 [0x61]) { p0 with station0 := StationState.reset }) =
    [.fault .cfgNoPhy] := by decide
/-- RX-1. -/
theorem test_dlReceive : after (exec (.dlReceive .st1 0x7D) (holding .parity 1024 [0x7B, 0x41, 0x00])) =
    some { p0 with trace := [.deliver .st1 [0x41]] } := by decide
/-- RX-12. -/
theorem test_dlReceive_mismatch : events (exec (.dlReceive .st1 0x7D) (holding .parity 1024 [0x7B, 0x41, 0x80])) =
    [.diag (.parityMismatch .st1 [0x41] 0x80 0x00)] := by decide
/-- BV-3. -/
theorem test_bvNew : (after (exec .bvNew { p0 with bv := ⟨[0, 9], 10⟩ })).map State.bv = some ⟨[], 0⟩ := by decide
/-- BV-4: bits 0..7 of 0x0F. -/
theorem test_bvFromBytes : (after (exec (.bvFromBytes [0xA5, 0x0F] 1 2) p0)).map State.bv =
    some ⟨[4, 5, 6, 7], 8⟩ := by decide
/-- BV-14. -/
theorem test_bvFromBytes_range : (after (exec (.bvFromBytes [0x01] (-1) 1) p0)).map State.status = some 0x41 := by
  decide
/-- BV-8: a write below `BV.LEN`. -/
theorem test_bvSet : (after (exec (.bvSet 2 false) { p0 with bv := ⟨[2, 5], 6⟩ })).map State.bv = some ⟨[5], 6⟩ := by
  decide
/-- BV-7. -/
theorem test_bvSet_last : (after (exec (.bvSet 2147483647 false) p0)).map (fun t => t.bv.len) = some 2147483648 := by
  decide
/-- BV-6. -/
theorem test_bvGet : events (exec (.bvGet 0) { p0 with bv := ⟨[0], 8⟩ }) = [.result (.bit true)] ∧
    events (exec (.bvGet 2147483647) { p0 with bv := ⟨[0], 8⟩ }) = [.result (.bit false)] := by decide
/-- BV-11. -/
theorem test_bvGet_negative : (after (exec (.bvGet (-2147483648)) p0)).map State.status = some 0x40 := by decide
/-- BV-5. -/
theorem test_bvLen : events (exec .bvLen { p0 with bv := ⟨[20], 21⟩ }) = [.result (.length 21)] := by decide
/-- BV-2. -/
theorem test_bvToBytes : events (exec .bvToBytes { p0 with bv := ⟨[0, 9], 10⟩ }) = [.result (.bytes [0x80, 0x40])] := by
  decide
/-- SYS-9. -/
theorem test_netSend_empty : after (exec (.netSend .st0) p0) = some p0 := by decide
/-- R123, the example. -/
theorem test_netSend : deliveries (events (exec (.netSend .st0)
    { p0 with cfg := { p0.cfg with testMessages := [[0x61, 0x62, 0x63]] } })) = [(.st1, [0x61, 0x62, 0x63])] := by decide
/-- ENC-8 and SYS-4: the illegal command, running and halted. -/
theorem test_illegal : (after (step { State.reset with input := [0x03] })).map (fun t => (t.status, t.trace)) =
      some (0x01, [.fault .illegalCommand]) ∧
    (after (step { State.reset with input := [0x03], status := 0x10 })).map (fun t => (t.status, t.trace)) =
      some (0x10, [.refused .illegal]) := by decide
/-- ENC-11 and R6: a truncated command, and an empty stream under a configuration that is not admitted, end a run
without a final state. -/
theorem test_runStream_refused : runStream { p0 with input := [0x31], trace := [.result (.length 0)] } =
      .refused .truncatedCommand [.result (.length 0)] ∧
    runStream { p0 with cfg := { p0.cfg with rxBufMax := 1 } } = .refused .configurationNotAdmitted [] := by decide
/-- R86: a generator under ALWAYS consumes two samples, under SHORT_CIRCUIT only those that are read. -/
theorem test_drawFromSamples : drawFromSamples (fractionHits 999 5) (fractionHits 99 25) .always 0 [⟨999, 4⟩, ⟨3, 1⟩] =
      some (⟨true, false⟩, []) ∧
    drawFromSamples (fractionHits 999 5) (fractionHits 99 25) .shortCircuit (-1) [⟨999, 4⟩] =
      some (⟨false, false⟩, [⟨999, 4⟩]) := by decide

/-! ## Witnesses of the obligations' hypotheses -/

theorem witness_HaltedEngineRefusesAllButResetAndRdStatus :
    ({ p0 with status := 0x10 } : State).status ≠ 0x00 ∧ Instr.bvNew ≠ .reset ∧ Instr.bvNew ≠ .rdStatus := by decide

theorem witness_ACommandRaisesAtMostOneFault : p0.status = 0x00 := by decide

theorem witness_WiringChangesOnlyByItsCommands :
    (∃ t, exec (.medRegister .st0) State.reset = .next t) ∧ Instr.medRegister .st0 ≠ .reset ∧
    (∀ st, Instr.medRegister .st0 ≠ .dlBind st) ∧
    (∃ t, exec (.dlBind .st0) p0 = .next t) ∧ Instr.dlBind .st0 ≠ .reset ∧
    (∀ st, Instr.dlBind .st0 ≠ .medRegister st) ∧ p0.slot0 = some .st0 ∧ p0.slot1 = some .st1 :=
  ⟨⟨_, rfl⟩, nofun, nofun, ⟨_, rfl⟩, nofun, nofun, rfl, rfl⟩

theorem witness_PowerOnSatisfiesTheInvariant :
    admitted (Config.ofVariants .simple .noisy) = true ∧
    admitted { Config.ofVariants .parity .perfect with maxPayload := some 1, maxBurst := 127, rxBufMax := 2 } = true := by
  decide

/-- A full buffer and a command that overflows it. -/
theorem witness_EveryStepKeepsTheInvariant :
    Inv { holding .parity 2 [0x7B, 0x41] with input := [0x32, 0x01, 0x7D] } ∧
    ∃ t, step { holding .parity 2 [0x7B, 0x41] with input := [0x32, 0x01, 0x7D] } = .next t :=
  ⟨{ slots := nofun, burst := by unfold BurstInRange; decide, rx := fun st => by cases st <;> decide, status := .inl rfl,
     bv := ⟨by decide, fun _ _ => rfl, by decide⟩ }, _, rfl⟩

theorem witness_MedRegisterFillsTheFirstFreeSlot :
    (State.reset.status = 0x00 ∧ State.reset.slot0 = none) ∧
    (let s : State := { State.reset with slot0 := some .st1 }
     s.status = 0x00 ∧ s.slot0 ≠ none ∧ s.slot1 = none) ∧
    (p0.status = 0x00 ∧ p0.slot0 ≠ none ∧ p0.slot1 ≠ none) := by decide

/-- Not registered at all; in slot 0 without a peer; in slot 1 without a peer. -/
theorem witness_MedSendFaultsWithoutSenderOrPeer :
    (State.reset.slot0 ≠ some .st0 ∧ State.reset.slot1 ≠ some .st0) ∧
    (let s : State := { State.reset with slot0 := some .st0 }
     s.status = 0x00 ∧ s.slot0 = some .st0 ∧ s.slot1 = none) ∧
    (let s : State := { State.reset with slot1 := some .st0 }
     s.status = 0x00 ∧ s.slot0 = none ∧ s.slot1 = some .st0) := by decide

/-- The last bit that does not complete a byte; and the loopback, where the sender is its own peer. -/
theorem witness_MedSendOverThePerfectMedium :
    (let s := shifting p0 0x3F 6
     s.status = 0x00 ∧ s.cfg.medium = .perfect ∧ PeerIs s .st0 .st1 ∧ PeerIs s .st1 .st0 ∧
       (s.station .st1).rxCount.toNat < 7) ∧
    PeerIs { p0 with slot1 := some .st0 } .st0 .st0 := by unfold PeerIs; decide

/-- In a burst at its last transfer, at a burst's first, and at the cooldown. -/
theorem witness_MedSendOverTheNoisyMedium :
    (let s : State := { shifting (booted .parity .noisy) 0x3F 6 with burst := 14, draws := [⟨false, true⟩] }
     s.status = 0x00 ∧ s.cfg.medium = .noisy ∧ PeerIs s .st0 .st1 ∧
       (0 < s.burst.toInt ∨ (s.burst = 0 ∧ s.nextDraw.startHit = true)) ∧ false = (true ^^ s.nextDraw.flipHit) ∧
       -1 = (if (s.burst + 1).toInt = s.cfg.maxBurst then -1 else s.burst + 1) ∧
       (s.station .st1).rxCount.toNat < 7) ∧
    (let s : State := { booted .parity .noisy with draws := [⟨true, false⟩] }
     (0 < s.burst.toInt ∨ (s.burst = 0 ∧ s.nextDraw.startHit = true)) ∧ true = (true ^^ s.nextDraw.flipHit) ∧
       1 = (if (s.burst + 1).toInt = s.cfg.maxBurst then -1 else s.burst + 1)) ∧
    (let s : State := { booted .parity .noisy with burst := -1, draws := [⟨true, true⟩] }
     ¬ (0 < s.burst.toInt ∨ (s.burst = 0 ∧ s.nextDraw.startHit = true))) := by unfold PeerIs; decide

/-- `MAX_BURST` at 1 and 127; the counter at 1 and at the ends of both of its ranges. -/
theorem witness_BurstTransitionTable :
    (1 ≤ 1 ∧ 1 ≤ 127 ∧ 127 ≤ 127) ∧ ((⟨false, true⟩ : Draw).startHit = false ∧ (⟨true, true⟩ : Draw).startHit = true) ∧
    (1 ≤ (1 : BitVec 8).toInt ∧ (1 : BitVec 8).toInt ≤ ((3 : Nat) : Int) - 2) ∧
    (1 ≤ (125 : BitVec 8).toInt ∧ (125 : BitVec 8).toInt ≤ ((127 : Nat) : Int) - 2) ∧
    (1 ≤ (1 : BitVec 8).toInt ∧ (1 : BitVec 8).toInt = ((2 : Nat) : Int) - 1) ∧
    (1 ≤ (126 : BitVec 8).toInt ∧ (126 : BitVec 8).toInt = ((127 : Nat) : Int) - 1) := by decide

/-- A burst of one transfer and one of three, with its last transfer named. -/
theorem witness_ABurstCoversExactlyMaxBurstTransfers :
    (1 ≤ 1 ∧ 1 ≤ 127 ∧ (⟨true, false⟩ : Draw).startHit = true ∧ ([] : List Draw).length + 1 = 1) ∧
    (let d : Draw := ⟨true, false⟩
     let e : Draw := ⟨false, true⟩
     1 ≤ 3 ∧ 3 ≤ 127 ∧ d.startHit = true ∧ [d, e].length + 1 = 3 ∧ d :: [d, e] = [d, d] ++ e :: []) := by decide

theorem witness_PerfectMediumHoldsNoBurstState :
    p0.cfg.medium = .perfect ∧ Instr.medSend .st0 true ≠ .reset ∧ ∃ t, exec (.medSend .st0 true) p0 = .next t :=
  ⟨rfl, nofun, _, rfl⟩

theorem witness_PhyReceiveShiftsBitsIntoBytes :
    ((shifting p0 0x3F 6).status = 0x00 ∧ ((shifting p0 0x3F 6).station .st1).rxCount.toNat < 7) ∧
    (let s := shifting { p0 with station1 := StationState.reset } 0x3D 7
     s.status = 0x00 ∧ (s.station .st1).rxCount = 7 ∧ (s.station .st1).bound = false) ∧
    (((shifting p0 0x3D 7).station .st1).rxCount = 7 ∧ ((shifting p0 0x3D 7).station .st1).bound = true) := by decide

theorem witness_EightBitsMsbFirstAreOneByte :
    (shifting p0 0x55 0).status = 0x00 ∧ ((shifting p0 0x55 0).station .st1).rxCount = 0 ∧
    ((shifting p0 0x55 0).station .st1).bound = true := by decide

/-- A bit in the middle of a byte, and one that completes it and faults. -/
theorem witness_EveryReceivedBitMovesTheByteBoundaryByOne :
    (p0.status = 0x00 ∧ ∃ t, exec (.phyReceive .st1 true) p0 = .next t) ∧
    (let s := shifting { p0 with station1 := StationState.reset } 0x3D 7
     s.status = 0x00 ∧ ∃ t, exec (.phyReceive .st1 true) s = .next t) := ⟨⟨rfl, _, rfl⟩, rfl, _, rfl⟩

/-- The second bit of a byte completes one at a station without a client. -/
theorem witness_PhySendIsItsMedSendsUpToTheFirstFault :
    (p0.status = 0x00 ∧
      ∃ t, execAll (([0xA0].flatMap bitsMsbFirst).map (.medSend .st0)) p0 = .next t ∧ t.status = 0x00) ∧
    (let s := shifting { p0 with station1 := StationState.reset } 0x3D 6
     s.status = 0x00 ∧ [0xA0].flatMap bitsMsbFirst = [true] ++ false :: [true, false, false, false, false, false] ∧
      ∃ t u, execAll ([true].map (.medSend .st0)) s = .next t ∧ t.status = 0x00 ∧
        exec (.medSend .st0 false) t = .next u ∧ u.status ≠ 0x00) :=
  ⟨⟨rfl, _, rfl, by decide⟩, rfl, by decide, _, _, rfl, by decide, rfl, by decide⟩

theorem witness_AByteCrossesThePerfectMedium :
    p0.status = 0x00 ∧ p0.cfg.medium = .perfect ∧ PeerIs p0 .st0 .st1 ∧ (p0.station .st1).rxCount = 0 ∧
    (p0.station .st1).bound = true := by unfold PeerIs; decide

/-- Bytes that fill the buffer to its bound. -/
theorem witness_PhySendFillsThePeersBuffer :
    let s := holding .parity 4 [0x7B, 0x41]
    s.status = 0x00 ∧ s.cfg.medium = .perfect ∧ PeerIs s .st0 .st1 ∧ (s.station .st1).rxCount = 0 ∧
    (s.station .st1).bound = true ∧ s.cfg.stop ∉ [0x42, 0x43] ∧
    (s.station .st1).rxBuf.length + [0x42, 0x43].length ≤ s.cfg.rxBufMax := by unfold PeerIs; decide

theorem witness_FrameFormats :
    (Config.ofVariants .simple .perfect).framing = .simple ∧ (Config.ofVariants .parity .perfect).framing = .parity := by
  decide

/-- The longest chunk and the empty one. -/
theorem witness_FrameLengths :
    let cfg := { p0.cfg with emptySendEmitsFrame := true }
    cfg.framing = .parity ∧ cfg.maxPayload = some 8 ∧ List.replicate 8 0x7D ∈ chunks cfg (List.replicate 8 0x7D) ∧
    [] ∈ chunks cfg [] ∧ (Config.ofVariants .simple .perfect).framing = .simple := by decide

/-- Two full chunks and a short one; chunks of one byte. -/
theorem witness_ChunksPartitionTheBuffer :
    (List.replicate 17 (0x00 : Byte) ≠ [] ∧ p0.cfg.framing = .parity ∧ p0.cfg.maxPayload = some 8 ∧
      1 + 1 < (chunks p0.cfg (List.replicate 17 0x00)).length) ∧
    (let cfg := { p0.cfg with maxPayload := some 1 }
     cfg.framing = .parity ∧ cfg.maxPayload = some 1 ∧ 0 + 1 < (chunks cfg [0x00, 0x01]).length) ∧
    (Config.ofVariants .simple .perfect).framing = .simple := by decide

theorem witness_AnEmptyBufferSendsNothingUnlessConfigured :
    p0.cfg.emptySendEmitsFrame = false ∧ ({ p0.cfg with emptySendEmitsFrame := true } : Config).emptySendEmitsFrame = true ∧
    p0.cfg.framing = .parity ∧ (Config.ofVariants .simple .perfect).framing = .simple ∧ p0.status = 0x00 ∧
    (p0.station .st0).bound = true := by decide

/-- An unescaped STOP is a byte that is not ESC. -/
theorem witness_UnstuffingUndoesStuffing : (0x7D : Byte) ≠ p0.cfg.esc := by decide

theorem witness_DlSendIsPhySendOfTheFrames :
    (State.reset.status = 0x00 ∧ (State.reset.station .st0).bound = false) ∧ (p0.station .st0).bound = true := by decide

/-- A byte that is not STOP, a STOP at an empty buffer, a STOP after an ESC; the buffer one byte short of full. -/
theorem witness_DlReceiveKeepsBytesUntilAFrameCompletes :
    (let s := holding .parity 3 [0x7B, 0x41]
     s.status = 0x00 ∧ (s.station .st1).rxBuf.length ≠ s.cfg.rxBufMax ∧ (0x00 : Byte) ≠ s.cfg.stop) ∧
    (p0.station .st1).rxBuf = [] ∧
    (let s := holding .parity 3 [0x7B, 0x5C]
     (s.station .st1).rxBuf.length ≠ s.cfg.rxBufMax ∧ (s.station .st1).rxBuf.getLast? = some s.cfg.esc) := by decide

/-- The buffer full, and one byte short of full with a STOP that completes a frame. -/
theorem witness_DlReceiveOverflowsOnlyAtAFullBuffer :
    (let s := holding .parity 4 [0x7B, 0x41, 0x42, 0x43]
     s.status = 0x00 ∧ (s.station .st1).rxBuf.length = s.cfg.rxBufMax) ∧
    (let s := holding .parity 4 [0x7B, 0x41, 0x00]
     s.status = 0x00 ∧ (s.station .st1).rxBuf.length < s.cfg.rxBufMax ∧
      ∃ t, exec (.dlReceive .st1 0x7D) s = .next t) := ⟨by decide, rfl, by decide, _, rfl⟩

/-- RX-13. -/
theorem witness_ABadStartByteIsAFault :
    let s := holding .parity 2 [0x00]
    s.status = 0x00 ∧ (s.station .st1).rxBuf = 0x00 :: [] ∧ ([0x00] : List Byte).length ≠ s.cfg.rxBufMax ∧
    ([0x00] : List Byte).getLast? ≠ some s.cfg.esc ∧ 0x00 ≠ s.cfg.start := by decide

/-- The empty frame and one that fills the buffer. -/
theorem witness_SimpleFramesAreDelivered :
    (let s := holding .simple 2 [0x7B]
     s.status = 0x00 ∧ s.cfg.framing = .simple ∧ (s.station .st1).rxBuf = s.cfg.start :: [] ∧
      ([s.cfg.start] : List Byte).length ≠ s.cfg.rxBufMax ∧ [s.cfg.start].getLast? ≠ some s.cfg.esc) ∧
    (let s := holding .simple 4 [0x7B, 0x5C, 0x7D]
     (s.station .st1).rxBuf = s.cfg.start :: [0x5C, 0x7D] ∧ (s.cfg.start :: [0x5C, 0x7D]).length ≠ s.cfg.rxBufMax ∧
      (s.cfg.start :: [0x5C, 0x7D]).getLast? ≠ some s.cfg.esc) := by decide

/-- A frame that fills the buffer, the empty payload, and the two-byte buffer. -/
theorem witness_ParityFramesAreDeliveredOrDropped :
    (let s := holding .parity 4 [0x7B, 0x41, 0x00]
     s.status = 0x00 ∧ s.cfg.framing = .parity ∧ admitted s.cfg = true ∧
      (s.station .st1).rxBuf = s.cfg.start :: [0x41] ++ [0x00] ∧ 0x00 ≠ s.cfg.esc ∧ [0x41].length + 2 ≠ s.cfg.rxBufMax) ∧
    (let s := holding .parity 3 [0x7B, 0x01]
     admitted s.cfg = true ∧ (s.station .st1).rxBuf = s.cfg.start :: [] ++ [0x01] ∧ 0x01 ≠ s.cfg.esc ∧
      ([] : List Byte).length + 2 ≠ s.cfg.rxBufMax) ∧
    (let s := holding .parity 2 [0x7B]
     admitted s.cfg = true ∧ (s.station .st1).rxBuf = [s.cfg.start]) := by decide

/-- PARITY with two chunks of the longest frame the buffer holds; SIMPLE with a buffer that does not end in ESC; the
empty buffer. -/
theorem witness_DlSendRoundTripsOverThePerfectMedium :
    (let s := holding .parity 19 []
     let data : List Byte := List.replicate 9 0x5C
     s.status = 0x00 ∧ admitted s.cfg = true ∧ s.cfg.medium = .perfect ∧ PeerIs s .st0 .st1 ∧
      (s.station .st0).bound = true ∧ (s.station .st1).bound = true ∧ (s.station .st1).rxBuf = [] ∧
      (s.station .st1).rxCount = 0 ∧ (∀ c ∈ chunks s.cfg data, (frame s.cfg c).length ≤ s.cfg.rxBufMax) ∧
      (s.cfg.framing = .simple → data.getLast? ≠ some s.cfg.esc)) ∧
    (let s := holding .simple 6 []
     admitted s.cfg = true ∧ s.cfg.framing = .simple ∧
      (∀ c ∈ chunks s.cfg [0x5C, 0x7D], (frame s.cfg c).length ≤ s.cfg.rxBufMax) ∧
      ([0x5C, 0x7D] : List Byte).getLast? ≠ some s.cfg.esc ∧ ([] : List Byte).getLast? ≠ some s.cfg.esc) := by
  unfold PeerIs; decide

/-- P3's first frame, which fills the buffer. -/
theorem witness_ASimplePayloadEndingInEscIsNotDelivered :
    let s := holding .simple 5 []
    s.status = 0x00 ∧ admitted s.cfg = true ∧ s.cfg.framing = .simple ∧ s.cfg.medium = .perfect ∧
    PeerIs s .st0 .st1 ∧ (s.station .st0).bound = true ∧ (s.station .st1).bound = true ∧
    (s.station .st1).rxBuf = [] ∧ (s.station .st1).rxCount = 0 ∧ [0x61, 0x5C].getLast? = some s.cfg.esc ∧
    (frame s.cfg [0x61, 0x5C]).length ≤ s.cfg.rxBufMax := by unfold PeerIs; decide

/-- The first payload byte at its top bit (program P2), and the last payload byte turned into an ESC. -/
theorem witness_ASingleFlippedPayloadBitIsDetected :
    (let q := (frame p0.cfg [0x41]).set 1 ((frame p0.cfg [0x41]).getD 1 0x00 ^^^ (1#8 <<< 7))
     p0.status = 0x00 ∧ admitted p0.cfg = true ∧ p0.cfg.framing = .parity ∧ popcount p0.cfg.esc % 2 = 0 ∧
      (p0.station .st1).rxBuf = [] ∧ (frame p0.cfg [0x41]).length ≤ p0.cfg.rxBufMax ∧ 1 ≤ 1 ∧
      1 + 2 < (frame p0.cfg [0x41]).length ∧ 7 < 8 ∧ q = [0x7B, 0xC1, 0x00, 0x7D] ∧
      ∀ n, n < q.length → complete p0.cfg (q.take n) = false) ∧
    (let q := (frame p0.cfg [0x41, 0x58]).set 2 ((frame p0.cfg [0x41, 0x58]).getD 2 0x00 ^^^ (1#8 <<< 2))
     2 + 2 < (frame p0.cfg [0x41, 0x58]).length ∧ q = [0x7B, 0x41, 0x5C, 0x01, 0x7D] ∧
      ∀ n, n < q.length → complete p0.cfg (q.take n) = false) := by decide

theorem witness_DlBindBindsOnce :
    State.reset.status = 0x00 ∧ (State.reset.station .st0).bound = false ∧ (p0.station .st0).bound = true := by decide

/-- The second message faults: its receiver's buffer is full. -/
theorem witness_NetSendIsItsDlSendsUpToTheFirstFault :
    (let s : State := { p0 with cfg := { p0.cfg with testMessages := [[0x61]] } }
     s.status = 0x00 ∧ ∃ t, execAll (s.cfg.testMessages.map (.dlSend .st0)) s = .next t ∧ t.status = 0x00) ∧
    (let s : State := { holding .parity 4 [] with cfg := { (holding .parity 4 []).cfg with
        testMessages := [[0x61], [0x62, 0x63], [0x64]] } }
     s.status = 0x00 ∧ s.cfg.testMessages = [[0x61]] ++ [0x62, 0x63] :: [[0x64]] ∧
      ∃ t u, execAll ([[0x61]].map (.dlSend .st0)) s = .next t ∧ t.status = 0x00 ∧
        exec (.dlSend .st0 [0x62, 0x63]) t = .next u ∧ u.status ≠ 0x00) :=
  ⟨⟨rfl, _, rfl, by decide⟩, rfl, rfl, _, _, rfl, by decide, rfl, by decide⟩

theorem witness_NetSendDeliversTheTestMessages :
    let s : State := { holding .parity 19 [] with cfg := { (holding .parity 19 []).cfg with
      testMessages := [[0x61], List.replicate 8 0x5C] } }
    s.status = 0x00 ∧ admitted s.cfg = true ∧ s.cfg.framing = .parity ∧ s.cfg.medium = .perfect ∧
    PeerIs s .st0 .st1 ∧ (s.station .st0).bound = true ∧ (s.station .st1).bound = true ∧
    (s.station .st1).rxBuf = [] ∧ (s.station .st1).rxCount = 0 ∧
    ∀ m ∈ s.cfg.testMessages, ∀ c ∈ chunks s.cfg m, (frame s.cfg c).length ≤ s.cfg.rxBufMax := by
  unfold PeerIs; decide

theorem witness_LinkCommandsChangeOnlyTheReceivingStation :
    (∃ t, exec (.medSend .st0 true) p0 = .next t) ∧ ¬ PeerIs p0 .st0 .st0 ∧
    (∃ t, exec (.phyReceive .st1 true) p0 = .next t) ∧ Station.st0 ≠ .st1 ∧
    (∃ t, exec (.dlReceive .st1 0x7B) p0 = .next t) :=
  ⟨⟨_, rfl⟩, by unfold PeerIs; decide, ⟨_, rfl⟩, nofun, _, rfl⟩

theorem witness_BvNewMakesTheVectorEmpty : ({ p0 with bv := ⟨[0], 17⟩ } : State).status = 0x00 := by decide

/-- The range ends at the data's end, is empty, and fails each of its three conditions. -/
theorem witness_BvFromBytesLoadsTheRange :
    let n : Int := (([0xA5, 0x0F] : List Byte).length : Int)
    p0.status = 0x00 ∧
    (0 ≤ (0 : BitVec 32).toInt ∧ (0 : BitVec 32).toInt ≤ (2 : BitVec 32).toInt ∧ (2 : BitVec 32).toInt ≤ n) ∧
    (((1 : Nat) : Int) < (2 : BitVec 32).toInt - (0 : BitVec 32).toInt ∧ 7 < 8) ∧
    (0 ≤ (2 : BitVec 32).toInt ∧ (2 : BitVec 32).toInt ≤ (2 : BitVec 32).toInt ∧ (2 : BitVec 32).toInt ≤ n) ∧
    ¬ 0 ≤ (-1 : BitVec 32).toInt ∧ ¬ (2 : BitVec 32).toInt ≤ (1 : BitVec 32).toInt ∧ ¬ (3 : BitVec 32).toInt ≤ n := by decide

/-- The indices -1, 0 and 2^31 - 1. -/
theorem witness_BvSetWritesOneBit :
    p0.status = 0x00 ∧ (-1 : BitVec 32).toInt < 0 ∧ (0x80000000 : BitVec 32).toInt < 0 ∧ 0 ≤ (0 : BitVec 32).toInt ∧
    0 ≤ (0x7FFFFFFF : BitVec 32).toInt ∧ 5 ≠ (0 : BitVec 32).toInt.toNat := by decide

/-- The same indices, and the index equal to the known length. -/
theorem witness_BvGetReadsOneBit :
    p0.status = 0x00 ∧ (-1 : BitVec 32).toInt < 0 ∧ 0 ≤ (0x7FFFFFFF : BitVec 32).toInt ∧
    0 ≤ (8 : BitVec 32).toInt ∧ BvWellFormed { p0 with bv := ⟨[], 8⟩ } ∧ ((8 : Nat) : Int) ≤ (8 : BitVec 32).toInt :=
  ⟨rfl, by decide, by decide, by decide, ⟨by decide, fun _ _ => rfl, by decide⟩, by decide⟩

theorem witness_BvLenReturnsTheKnownLength : p0.status = 0x00 := by decide

/-- A vector with a partial last byte: its last bit below the known length and its first one above. -/
theorem witness_BvToBytesExportsTheVector :
    let s : State := { p0 with bv := ⟨[0, 9], 10⟩ }
    s.status = 0x00 ∧ 1 < (s.bv.len + 7) / 8 ∧ 1 < 8 ∧ 8 * 1 + 1 < s.bv.len ∧ ¬ 8 * 1 + 2 < s.bv.len := by decide

theorem witness_BvBytesRoundTrip : p0.status = 0x00 ∧ ([0xA5, 0x0F] : List Byte).length < 2 ^ 31 := by decide

theorem witness_KnownLengthFallsOnlyOnExplicitReset :
    (∃ t, exec (.bvSet 0 true) p0 = .next t) ∧ Instr.bvSet 0 true ≠ .bvNew ∧
    (∀ d b e, Instr.bvSet 0 true ≠ .bvFromBytes d b e) ∧ Instr.bvSet 0 true ≠ .reset ∧
    (∃ t, exec (.bvGet 0) p0 = .next t) ∧ (∃ t, exec .bvLen p0 = .next t) ∧ ∃ t, exec .bvToBytes p0 = .next t :=
  ⟨⟨_, rfl⟩, nofun, nofun, nofun, ⟨_, rfl⟩, ⟨_, rfl⟩, _, rfl⟩

theorem witness_OtherCommandsLeaveTheBitSpaceAlone :
    Instr.bvGet 0 ≠ .reset ∧ Instr.bvGet 0 ≠ .bvNew ∧ (∀ d b e, Instr.bvGet 0 ≠ .bvFromBytes d b e) ∧
    (∀ n v, Instr.bvGet 0 ≠ .bvSet n v) ∧ ∃ t, exec (.bvGet 0) p0 = .next t := ⟨nofun, nofun, nofun, nofun, _, rfl⟩

/-- The most data bytes an encoding carries. -/
theorem witness_DecodeEncodeRoundTrip : WellFormed (.phySend .st0 (List.replicate 65535 0x00)) := by
  simp only [WellFormed, Instr.dataBytes, maxDataBytes, List.length_replicate]
  omega

theorem witness_DecodedCommandsHaveOneSpelling : decode [0x43, 0x80, 0x00, 0x00, 0x00, 0x01] =
    .command (.bvGet 0x80000000) [0x01] := by decide

/-- Cut after byte 0, inside LEN16, and before the last byte. -/
theorem witness_ATruncatedCommandIsRefusedByTheDecoder :
    let i : Instr := .dlSend .st0 [0x61, 0x62]
    WellFormed i ∧ encode i = [0x31] ++ [0x00, 0x00, 0x02, 0x61, 0x62] ∧
    encode i = [0x31, 0x00, 0x00] ++ [0x02, 0x61, 0x62] ∧ encode i = [0x31, 0x00, 0x00, 0x02, 0x61] ++ [0x62] := by decide

/-- Each listed range of opcode bytes at both ends; the least reserved operand byte. -/
theorem witness_IllegalEncodings :
    (0x03 ≤ (0x03 : Byte).toNat ∧ (0x0F : Byte).toNat ≤ 0x0F) ∧ (0x12 ≤ (0x12 : Byte).toNat ∧ (0x1F : Byte).toNat ≤ 0x1F) ∧
    (0x22 ≤ (0x22 : Byte).toNat ∧ (0x2F : Byte).toNat ≤ 0x2F) ∧ (0x33 ≤ (0x33 : Byte).toNat ∧ (0x3F : Byte).toNat ≤ 0x3F) ∧
    (0x46 ≤ (0x46 : Byte).toNat ∧ (0x4F : Byte).toNat ≤ 0x4F) ∧ (0x51 ≤ (0x51 : Byte).toNat ∧ 0x51 ≤ (0xFF : Byte).toNat) ∧
    2 ≤ (0x02 : Byte).toNat ∧ ([] : List Byte).length ≤ 65535 := by decide

theorem witness_StepRunsTheDecodedInstruction :
    let s : State := { p0 with input := [0x44, 0x01] }
    admitted s.cfg = true ∧ decode s.input = .command .bvLen [0x01] := by decide

theorem witness_StepTakesTheIllegalCommand :
    let s : State := { p0 with input := [0x03, 0x01] }
    admitted s.cfg = true ∧ decode s.input = .illegal [0x01] ∧ s.status = 0x00 ∧
    ({ s with status := 0x10 } : State).status ≠ 0x00 := by decide

theorem witness_StepRefusesTruncatedCommandsAndBadConfigurations :
    (let s : State := { p0 with input := [0x10] }
     admitted s.cfg = true ∧ decode s.input = .truncated) ∧ (admitted p0.cfg = true ∧ p0.input = []) ∧
    admitted { p0.cfg with rxBufMax := 1 } = false ∧ admitted { p0.cfg with maxBurst := 128 } = false := by decide

end Sys2Proof.Tests
end

