-- ==== Sys2Proof/Proofs/Admitted.lean ====
section
/-! PROOFS. The test `admitted` of 00_scope.md R6, read condition by condition. -/

namespace Sys2Proof.Machine

/-- A test guarded by `FRAMING_VARIANT = PARITY`, the shape of conditions (b) and (c) of R6. -/
theorem parityGuard_eq_true_iff (f : FramingVariant) (b : Bool) :
    (f != .parity || b) = true ↔ (f = .parity → b = true) := by
  cases f with
  | parity => simp
  | simple => simp

/-- Condition (a) of R6 as tested. -/
theorem markersDistinct_eq_true_iff (cfg : Config) :
    (cfg.start != cfg.stop && cfg.start != cfg.esc && cfg.stop != cfg.esc) = true ↔
      cfg.start ≠ cfg.stop ∧ cfg.start ≠ cfg.esc ∧ cfg.stop ≠ cfg.esc := by
  simp only [Bool.and_eq_true, bne_iff_ne, and_assoc]

/-- The test of condition (b) of R6: no marker has a value a check byte can take (R48). -/
theorem noneIsCheckByte_eq_true_iff (ms : List Byte) :
    (ms.all fun m => m != 0x00 && m != 0x01) = true ↔ ∀ m ∈ ms, m ≠ 0x00 ∧ m ≠ 0x01 := by
  simp only [List.all_eq_true, Bool.and_eq_true, bne_iff_ne]

/-- The test of condition (c) of R6; an unbounded `MAX_PAYLOAD` passes it (log 15). -/
theorem payloadAtLeastOne_eq_true_iff (p : Option ℕ+) :
    (p.all fun m => decide (1 ≤ (m : Nat))) = true ↔ ∀ n, p = some n → 1 ≤ (n : Nat) := by
  cases p with
  | none => simp
  | some n => simp

/-- Settles O60: `admitted` is the conjunction of five tests, each equivalent to its condition of R6. -/
theorem admittedConfigurationsAreThoseOfR6 : Obligations.AdmittedConfigurationsAreThoseOfR6 := by
  intro cfg
  rw [admitted, Bool.and_eq_true, Bool.and_eq_true, Bool.and_eq_true, Bool.and_eq_true,
    markersDistinct_eq_true_iff, parityGuard_eq_true_iff, noneIsCheckByte_eq_true_iff,
    parityGuard_eq_true_iff, payloadAtLeastOne_eq_true_iff, decide_eq_true_iff, decide_eq_true_iff]
  -- The five conditions stand in R6's order; only the brackets differ.
  simp only [and_assoc]

end Sys2Proof.Machine
end

/-! PROOFS. The state's invariant and what each command may write (10_state.md R11 to R22): a principle for properties
that commands and steps keep, the invariant carried through every update, and the wiring. -/

namespace Sys2Proof

/-! ## What the decoder reads has an encoding (30_encoding.md R57) -/

section
variable {body : List Byte} {i : Instr}

theorem readStation_wellFormed {f : Station → Instr} (hf : ∀ s, WellFormed (f s))
    (h : readStation f body = some i) : WellFormed i := by
  unfold readStation at h
  split at h
  · obtain ⟨s, -, rfl⟩ := Option.map_eq_some_iff.1 h
    exact hf s
  · cases h

theorem readStationBit_wellFormed {f : Station → Bit → Instr} (hf : ∀ s b, WellFormed (f s b))
    (h : readStationBit f body = some i) : WellFormed i := by
  unfold readStationBit at h
  split at h
  · obtain ⟨s, -, hb⟩ := Option.bind_eq_some_iff.1 h
    obtain ⟨b, -, rfl⟩ := Option.map_eq_some_iff.1 hb
    exact hf s b
  · cases h

theorem readStationByte_wellFormed {f : Station → Byte → Instr} (hf : ∀ s x, WellFormed (f s x))
    (h : readStationByte f body = some i) : WellFormed i := by
  unfold readStationByte at h
  split at h
  · obtain ⟨s, -, rfl⟩ := Option.map_eq_some_iff.1 h
    exact hf s _
  · cases h

theorem readIndexBit_wellFormed {f : BitVec 32 → Bit → Instr} (hf : ∀ v b, WellFormed (f v b))
    (h : readIndexBit f body = some i) : WellFormed i := by
  unfold readIndexBit at h
  split at h
  · obtain ⟨b, -, rfl⟩ := Option.map_eq_some_iff.1 h
    exact hf _ b
  · cases h

theorem readIndex_wellFormed {f : BitVec 32 → Instr} (hf : ∀ v, WellFormed (f v))
    (h : readIndex f body = some i) : WellFormed i := by
  unfold readIndex at h
  split at h
  · cases h
    exact hf _
  · cases h

/-- A CF3 command carries the operand bytes after STN and LEN16, of which R59 takes as many as LEN16 counts. -/
theorem readStationData_wellFormed {f : Station → List Byte → Instr} {n : Nat}
    (hf : ∀ s data, data.length ≤ maxDataBytes → WellFormed (f s data)) (hn : operandLength .cf3 body = some n)
    (h : readStationData f (body.take n) = some i) : WellFormed i := by
  unfold readStationData at h
  split at h
  · rename_i s hi lo data hbody
    obtain ⟨s, -, rfl⟩ := Option.map_eq_some_iff.1 h
    refine hf s data ?_
    simp only [operandLength] at hn
    split at hn
    · rename_i _ hi' lo' _
      cases hn
      have hlen := congrArg List.length hbody
      have hmax := len16_le hi' lo'
      simp only [List.length_take, List.length_cons] at hlen
      omega
    · cases hn
  · cases h

/-- A CF6 command carries as many data bytes as its LEN16 counts, or fewer. -/
theorem readDataRange_wellFormed {f : List Byte → BitVec 32 → BitVec 32 → Instr}
    (hf : ∀ data b e, data.length ≤ maxDataBytes → WellFormed (f data b e))
    (h : readDataRange f body = some i) : WellFormed i := by
  unfold readDataRange at h
  split at h
  · split at h
    · cases h
      exact hf _ _ _ ((List.length_take_le _ _).trans (len16_le _ _))
    · cases h
  · cases h

theorem readOperands_wellFormed {op : Opcode} {n : Nat} (hn : operandLength op.format body = some n)
    (h : readOperands op (body.take n) = some i) : WellFormed i := by
  cases op with
  | reset | rdStatus | bvNew | bvLen | bvToBytes => cases h; exact Nat.zero_le _
  | medRegister | dlBind | netSend => exact readStation_wellFormed (fun _ => Nat.zero_le _) h
  | medSend | phyReceive => exact readStationBit_wellFormed (fun _ _ => Nat.zero_le _) h
  | phySend | dlSend =>
    refine readStationData_wellFormed (fun _ _ hd => ?_) hn h
    exact hd
  | dlReceive => exact readStationByte_wellFormed (fun _ _ => Nat.zero_le _) h
  | bvFromBytes =>
    refine readDataRange_wellFormed (fun _ _ _ hd => ?_) h
    exact hd
  | bvSet => exact readIndexBit_wellFormed (fun _ _ => Nat.zero_le _) h
  | bvGet => exact readIndex_wellFormed (fun _ => Nat.zero_le _) h

/-- A decoded command carries no more data than LEN16 counts. -/
theorem decode_wellFormed {stream rest : List Byte} (h : decode stream = .command i rest) : WellFormed i := by
  unfold decode at h
  split at h
  · cases h
  · split at h
    · cases h
    · split at h
      · cases h
      · rename_i n hn
        split at h
        · cases h
        · split at h
          · rename_i j hj
            cases h
            exact readOperands_wellFormed hn hj
          · cases h

end

end Sys2Proof

namespace Sys2Proof.Machine

/-! ## Properties that commands and steps keep -/

/-- P is kept by the updates that instruction i makes and no link rule does: RESET's, the slots' (R80), the binding
flags' (R122) and the bit vector unit's (R70 to R72). -/
structure WritersKeep (i : Instr) (P : State → Prop) : Prop where
  reset : i = .reset → ∀ s, P s → P (resetState s)
  slot0 : ∀ st, i = .medRegister st → ∀ s, s.slot0 = none → P s → P (s.setSlot0 (some st))
  slot1 : ∀ st, i = .medRegister st → ∀ s, s.slot0 ≠ none → s.slot1 = none → P s → P (s.setSlot1 (some st))
  bound : ∀ st, i = .dlBind st → ∀ s, P s → P (s.setBound st true)
  bvNew : i = .bvNew → ∀ s, P s → P (s.setBv BitVectorUnit.reset)
  bvLoad : ∀ data b e, i = .bvFromBytes data b e → ∀ s (q : List Byte), q.length ≤ data.length → P s →
    P (s.setBv (bvOfBytes q))
  bvWrite : ∀ index v, i = .bvSet index v → ∀ s n, n < bvSpaceSize → P s → P (s.setBv (bvWrite s.bv n v))

/-- An index that is not negative lies in the bit space (R30). -/
theorem toNat_signedValue_lt (index : BitVec 32) : (signedValue index).toNat < bvSpaceSize := by
  have := @BitVec.toInt_lt 32 index
  simp only [signedValue, bvSpaceSize]
  omega

section
variable {P : State → Prop} (hl : LinkClosed (fun _ => True) P)
include hl

theorem LinkClosed.perform {c : Command} {rule : State → Run} {s t : State} (h : perform c rule s = .next t)
    (hs : P s) (hrule : P (rule s).final) : P t := by
  by_cases hz : s.status = 0x00
  · rw [perform_running c rule hz] at h
    cases h
    exact hrule
  · rw [perform_halted c rule hz] at h
    cases h
    exact hl.emit _ _ hs

variable {i : Instr} (hw : WritersKeep i P) {s : State} (hs : P s)
include hw hs

theorem WritersKeep.registerEndpoint {st : Station} (hi : i = .medRegister st) : P (registerEndpoint st s).final := by
  unfold Machine.registerEndpoint
  split
  · exact hw.slot0 st hi s (by assumption) hs
  · split
    · exact hw.slot1 st hi s (by assumption) (by assumption) hs
    · exact hl.raise _ hs

theorem WritersKeep.bindStation {st : Station} (hi : i = .dlBind st) : P (bindStation st s).final := by
  unfold Machine.bindStation
  split
  · exact hl.raise _ hs
  · exact hw.bound st hi s hs

theorem WritersKeep.loadBytes {data : List Byte} {b e : BitVec 32} (hi : i = .bvFromBytes data b e) :
    P (loadBytes data b e s).final := by
  unfold Machine.loadBytes
  dsimp only
  split
  · refine hw.bvLoad data b e hi s _ ?_ hs
    simp only [List.length_drop, List.length_take]
    omega
  · exact hl.raise _ hs

theorem WritersKeep.setBit {index : BitVec 32} {v : Bit} (hi : i = .bvSet index v) : P (setBit index v s).final := by
  unfold Machine.setBit
  dsimp only
  split
  · exact hl.raise _ hs
  · exact hw.bvWrite index v hi s _ (toNat_signedValue_lt index) hs

omit hw in
theorem LinkClosed.getBit (index : BitVec 32) : P (getBit index s).final := by
  unfold Machine.getBit
  dsimp only
  split
  · exact hl.raise _ hs
  · exact hl.emit _ _ hs

/-- What the link rules keep and the instruction's own writes keep, the instruction keeps. -/
theorem exec_keeps {t : State} (h : exec i s = .next t) : P t := by
  have hp : ∀ st (u : State) r, P u → peer u st = .ok r → True := fun _ _ _ _ _ => trivial
  cases i with
  | reset => cases h; exact hw.reset rfl s hs
  | rdStatus => cases h; exact hl.emit _ _ hs
  | medRegister st => exact hl.perform h hs (hw.registerEndpoint hl hs rfl)
  | medSend st b => exact hl.perform h hs (hl.sendBit (hp st) b hs)
  | phySend st data => exact hl.perform h hs (hl.sendBytes (hp st) data hs)
  | phyReceive st b => exact hl.perform h hs (hl.receiveBit trivial b hs)
  | dlBind st => exact hl.perform h hs (hw.bindStation hl hs rfl)
  | dlSend st data => exact hl.perform h hs (hl.sendData (hp st) data hs)
  | dlReceive st x => exact hl.perform h hs (hl.receiveByte trivial x hs)
  | bvNew => exact hl.perform (rule := fun s => .done (s.setBv BitVectorUnit.reset)) h hs (hw.bvNew rfl s hs)
  | bvFromBytes data b e => exact hl.perform h hs (hw.loadBytes hl hs rfl)
  | bvSet index v => exact hl.perform h hs (hw.setBit hl hs rfl)
  | bvGet index => exact hl.perform h hs (hl.getBit hs index)
  | bvLen => exact hl.perform h hs (hl.emit _ _ hs)
  | bvToBytes => exact hl.perform h hs (hl.emit _ _ hs)
  | netSend st => exact hl.perform h hs (hl.sendTestMessages (hp st) hs)

end

/-- The three ways a step answers a next state (R120, R129), each under an admitted configuration. -/
theorem step_next_cases {s t : State} (h : step s = .next t) :
    admitted s.cfg = true ∧ ((decode s.input = .endOfStream ∧ t = s) ∨
      (∃ rest, decode s.input = .illegal rest ∧ takeIllegal (s.setInput rest) = .next t) ∨
      ∃ i rest, decode s.input = .command i rest ∧ exec i (s.setInput rest) = .next t) := by
  unfold step takeCommand at h
  split at h
  · refine ⟨by assumption, ?_⟩
    split at h
    · cases h
      exact .inl ⟨by assumption, rfl⟩
    · cases h
    · exact .inr (.inl ⟨_, by assumption, h⟩)
    · exact .inr (.inr ⟨_, _, by assumption, h⟩)
  · cases h

/-- What the link rules, every instruction that has an encoding, and the fetch keep, every step keeps. -/
theorem step_keeps {P : State → Prop} (hl : LinkClosed (fun _ => True) P)
    (hw : ∀ i, WellFormed i → WritersKeep i P) (hfetch : ∀ s q, P s → P (s.setInput q)) {s t : State}
    (h : step s = .next t) (hs : P s) : P t := by
  obtain ⟨-, ⟨-, rfl⟩ | ⟨rest, -, ht⟩ | ⟨i, rest, hi, ht⟩⟩ := step_next_cases h
  · exact hs
  · exact hl.perform ht (hfetch s rest hs) (hl.raise _ (hfetch s rest hs))
  · exact exec_keeps hl (hw i (decode_wellFormed hi)) (hfetch s rest hs) ht

/-! ## The stations' fields under the small updates -/

section
variable (s : State) (st a : Station)

/-- A station's update that leaves one of its fields leaves that field of both stations. -/
theorem State.setStation_field {α : Type} (f : StationState → α) {v : StationState} (h : f v = f (s.station st)) :
    f ((s.setStation st v).station a) = f (s.station a) := by
  rw [State.setStation_station]
  split
  · subst a; exact h
  · rfl

@[simp] theorem State.setRxBuf_bound (q : List Byte) : ((s.setRxBuf st q).station a).bound = (s.station a).bound :=
  s.setStation_field st a StationState.bound rfl

@[simp] theorem State.setDeserializer_bound (shift : Byte) (n : BitVec 3) :
    ((s.setDeserializer st shift n).station a).bound = (s.station a).bound :=
  s.setStation_field st a StationState.bound rfl

@[simp] theorem State.setDeserializer_rxBuf (shift : Byte) (n : BitVec 3) :
    ((s.setDeserializer st shift n).station a).rxBuf = (s.station a).rxBuf :=
  s.setStation_field st a StationState.rxBuf rfl

@[simp] theorem State.setBound_rxBuf (v : Bool) : ((s.setBound st v).station a).rxBuf = (s.station a).rxBuf :=
  s.setStation_field st a StationState.rxBuf rfl

end

/-! ## The wiring (R11, R16, R21) -/

/-- t has the configuration, the slots and the binding flags of s. -/
structure SameWiring (s t : State) : Prop where
  cfg : t.cfg = s.cfg
  slot0 : t.slot0 = s.slot0
  slot1 : t.slot1 = s.slot1
  bound : ∀ a, (t.station a).bound = (s.station a).bound

/-- No link rule writes the wiring: what depends on it alone, they keep. -/
theorem LinkClosed.of_sameWiring {P : State → Prop} (hP : ∀ s t, SameWiring s t → P s → P t) :
    LinkClosed (fun _ => True) P where
  emit _ _ := hP _ _ ⟨rfl, rfl, rfl, by simp⟩
  fault s c hs _ := hP s (s.setStatus c.code) ⟨rfl, rfl, rfl, by simp⟩ hs
  deserializer _ _ _ _ _ := hP _ _ ⟨by simp, by simp, by simp, by simp⟩
  append _ _ _ _ _ := hP _ _ ⟨by simp, by simp, by simp, by simp [State.appendRx]⟩
  clear _ _ _ := hP _ _ ⟨by simp, by simp, by simp, by simp [State.clearRx]⟩
  release _ _ _ := hP _ _ ⟨by simp, by simp, by simp, by simp [State.releaseRx]⟩
  transfer _ := hP _ _ ⟨by simp, by simp, by simp, by simp⟩

/-- What instruction i may do to the wiring of s, ending in t. -/
structure WiringKept (i : Instr) (s t : State) : Prop where
  cfg : t.cfg = s.cfg
  filled0 : i ≠ .reset → ∀ a, s.slot0 = some a → t.slot0 = some a
  filled1 : i ≠ .reset → ∀ a, s.slot1 = some a → t.slot1 = some a
  slots : i ≠ .reset → (∀ st, i ≠ .medRegister st) → t.slot0 = s.slot0 ∧ t.slot1 = s.slot1
  bound : i ≠ .reset → (∀ st, i ≠ .dlBind st) → ∀ a, (t.station a).bound = (s.station a).bound

theorem WiringKept.refl (i : Instr) (s : State) : WiringKept i s s :=
  ⟨rfl, fun _ _ h => h, fun _ _ h => h, fun _ _ => ⟨rfl, rfl⟩, fun _ _ _ => rfl⟩

theorem WiringKept.of_sameWiring {i : Instr} {s t u : State} (e : SameWiring t u) (h : WiringKept i s t) :
    WiringKept i s u where
  cfg := e.cfg.trans h.cfg
  filled0 hr a ha := e.slot0.trans (h.filled0 hr a ha)
  filled1 hr a ha := e.slot1.trans (h.filled1 hr a ha)
  slots hr hm := ⟨e.slot0.trans (h.slots hr hm).1, e.slot1.trans (h.slots hr hm).2⟩
  bound hr hb a := (e.bound a).trans (h.bound hr hb a)

theorem SameWiring.setBv (s : State) (u : BitVectorUnit) : SameWiring s (s.setBv u) := ⟨rfl, rfl, rfl, by simp⟩

/-- The three writers of the wiring do what `WiringKept` allows each of them: MED_REGISTER fills an empty slot only. -/
theorem wiringKept_writersKeep (i : Instr) (s : State) : WritersKeep i (WiringKept i s) where
  reset hi _ h := ⟨h.cfg, fun hr => absurd hi hr, fun hr => absurd hi hr, fun hr => absurd hi hr,
    fun hr => absurd hi hr⟩
  slot0 st hi t h0 h :=
    { cfg := h.cfg
      filled0 := fun hr a ha => absurd (h.filled0 hr a ha) (by simp [h0])
      filled1 := h.filled1
      slots := fun _ hm => absurd hi (hm st)
      bound := by simpa using h.bound }
  slot1 st hi t _ h1 h :=
    { cfg := h.cfg
      filled0 := h.filled0
      filled1 := fun hr a ha => absurd (h.filled1 hr a ha) (by simp [h1])
      slots := fun _ hm => absurd hi (hm st)
      bound := by simpa using h.bound }
  bound st hi t h :=
    { cfg := by simpa using h.cfg
      filled0 := by simpa using h.filled0
      filled1 := by simpa using h.filled1
      slots := by simpa using h.slots
      bound := fun _ hb => absurd hi (hb st) }
  bvNew _ t h := h.of_sameWiring (.setBv t _)
  bvLoad _ _ _ _ t _ _ h := h.of_sameWiring (.setBv t _)
  bvWrite _ _ _ t _ _ h := h.of_sameWiring (.setBv t _)

/-- Settles O5: the link rules leave the wiring, and each of its writers does what it may. -/
theorem wiringChangesOnlyByItsCommands : Obligations.WiringChangesOnlyByItsCommands := by
  intro i s t h
  have hk : WiringKept i s t :=
    exec_keeps (.of_sameWiring fun _ _ => .of_sameWiring) (wiringKept_writersKeep i s) (.refl i s) h
  exact ⟨hk.cfg, fun hr => ⟨hk.filled0 hr, hk.filled1 hr⟩, hk.slots, hk.bound⟩

/-! ## The perfect medium (R13, R14, 41_medium.md R83) -/

/-- t has a perfect medium and the counter and the draws of s. -/
structure PerfectAndUndrawn (s t : State) : Prop where
  medium : t.cfg.medium = .perfect
  burst : t.burst = s.burst
  draws : t.draws = s.draws

/-- A transfer over the perfect medium changes no state (R83); no other rule touches the counter or the draws. -/
theorem perfectAndUndrawn_linkClosed (s : State) : LinkClosed (fun _ => True) (PerfectAndUndrawn s) where
  emit _ _ h := ⟨h.medium, h.burst, h.draws⟩
  fault _ _ h _ := ⟨h.medium, h.burst, h.draws⟩
  deserializer _ _ _ _ _ h := ⟨by simpa using h.medium, by simpa using h.burst, by simpa using h.draws⟩
  append _ _ _ _ _ h := ⟨by simpa using h.medium, by simpa using h.burst, by simpa using h.draws⟩
  clear _ _ _ h := ⟨by simpa using h.medium, by simpa using h.burst, by simpa using h.draws⟩
  release _ _ _ h := ⟨by simpa using h.medium, by simpa using h.burst, by simpa using h.draws⟩
  transfer t h := by rwa [State.afterTransfer_perfect t h.medium]

theorem perfectAndUndrawn_writersKeep {i : Instr} (hr : i ≠ .reset) (s : State) :
    WritersKeep i (PerfectAndUndrawn s) where
  reset hi := absurd hi hr
  slot0 _ _ _ _ h := ⟨h.medium, h.burst, h.draws⟩
  slot1 _ _ _ _ _ h := ⟨h.medium, h.burst, h.draws⟩
  bound _ _ _ h := ⟨by simpa using h.medium, by simpa using h.burst, by simpa using h.draws⟩
  bvNew _ _ h := ⟨h.medium, h.burst, h.draws⟩
  bvLoad _ _ _ _ _ _ _ h := ⟨h.medium, h.burst, h.draws⟩
  bvWrite _ _ _ _ _ _ h := ⟨h.medium, h.burst, h.draws⟩

/-- Settles O15. -/
theorem perfectMediumHoldsNoBurstState : Obligations.PerfectMediumHoldsNoBurstState := by
  intro i s t hm hr h
  have hk : PerfectAndUndrawn s t :=
    exec_keeps (perfectAndUndrawn_linkClosed s) (perfectAndUndrawn_writersKeep hr s) ⟨hm, rfl, rfl⟩ h
  exact ⟨hk.burst, hk.draws⟩

/-! ## The invariant, update by update (R12, R15, R18, R20, R22) -/

/-- Condition (d) of R6, from the test as a whole. -/
theorem maxBurst_of_admitted {cfg : Config} (h : admitted cfg = true) : 1 ≤ cfg.maxBurst ∧ cfg.maxBurst ≤ 127 := by
  obtain ⟨-, -, -, hburst, -⟩ := (admittedConfigurationsAreThoseOfR6 cfg).1 h
  exact hburst

/-- A 1 written below index 2^31 extends the known length with it (R31), so nothing above the length is set. -/
theorem bvWellFormed_bvWrite {s : State} (h : BvWellFormed s) {n : Nat} (hn : n < bvSpaceSize) (v : Bit) :
    BvWellFormed (s.setBv (bvWrite s.bv n v)) := by
  obtain ⟨hwf, hzero, hlen⟩ := h
  refine ⟨Memory.wf_write v hwf hn, fun i hi => ?_, ?_⟩
  · simp only [State.setBv_bv, bvWrite_len] at hi
    rw [State.setBv_bv, bvRead_bvWrite, if_neg (by omega)]
    exact hzero i (by omega)
  · simp only [State.setBv_bv, bvWrite_len]
    omega

/-- Data that LEN16 can count fits the bit space (R57, R30). -/
theorem bvWellFormed_bvOfBytes (s : State) {q : List Byte} (h : q.length ≤ maxDataBytes) :
    BvWellFormed (s.setBv (bvOfBytes q)) := by
  have hfit : 8 * q.length ≤ bvSpaceSize := by
    simp only [maxDataBytes] at h
    simp only [bvSpaceSize]
    omega
  refine ⟨Memory.wf_ofBits _ hfit, fun i hi => ?_, hfit⟩
  simp only [State.setBv_bv, bvOfBytes_len] at hi
  rw [State.setBv_bv, bvRead_bvOfBytes, decide_eq_false (by omega), Bool.false_and]

theorem bvWellFormed_reset (s : State) : BvWellFormed (s.setBv BitVectorUnit.reset) :=
  ⟨Memory.wf_nil, fun _ _ => rfl, Nat.zero_le _⟩

/-- RESET establishes the invariant whatever held before (R150). -/
theorem inv_resetState (s : State) (h : 1 ≤ s.cfg.maxBurst) : Inv (resetState s) where
  slots h1 := absurd rfl h1
  burst := by
    have h0 : (0 : BitVec 8).toInt = 0 := rfl
    simp only [BurstInRange, resetState_burst, resetState_cfg, h0]
    omega
  rx a := by simp [StationState.reset]
  status := .inl rfl
  bv := bvWellFormed_reset s

namespace Inv

variable {s : State}

/-- The invariant reads the configuration, the slots, the counter, the receive buffers, STATUS and the BV unit. -/
theorem congr (h : Inv s) {t : State} (hcfg : t.cfg = s.cfg) (h0 : t.slot0 = s.slot0) (h1 : t.slot1 = s.slot1)
    (hburst : t.burst = s.burst) (hrx : ∀ a, (t.station a).rxBuf = (s.station a).rxBuf)
    (hstatus : t.status = s.status) (hbv : t.bv = s.bv) : Inv t where
  slots := by simpa only [SlotsInOrder, h0, h1] using h.slots
  burst := by simpa only [BurstInRange, hcfg, hburst] using h.burst
  rx := by simpa only [RxWithinBound, hcfg, hrx] using h.rx
  status := by simpa only [StatusLegal, hstatus] using h.status
  bv := by simpa only [BvWellFormed, hbv] using h.bv

theorem emit (h : Inv s) (e : Event) : Inv (s.emit e) :=
  h.congr rfl rfl rfl rfl (by simp) rfl rfl

theorem setInput (h : Inv s) (q : List Byte) : Inv (s.setInput q) :=
  h.congr rfl rfl rfl rfl (by simp) rfl rfl

theorem useFree (h : Inv s) : Inv s.useFree :=
  h.congr rfl rfl rfl rfl (by simp) rfl rfl

theorem takeDraw (h : Inv s) : Inv s.takeDraw :=
  h.congr (by simp) (by simp) (by simp) (by simp) (by simp) (by simp) (by simp)

theorem setDeserializer (h : Inv s) (st : Station) (shift : Byte) (n : BitVec 3) :
    Inv (s.setDeserializer st shift n) :=
  h.congr (by simp) (by simp) (by simp) (by simp) (by simp) (by simp) (by simp)

theorem setBound (h : Inv s) (st : Station) (v : Bool) : Inv (s.setBound st v) :=
  h.congr (by simp) (by simp) (by simp) (by simp) (by simp) (by simp) (by simp)

theorem setStatus (h : Inv s) (c : FaultCode) : Inv (s.setStatus c.code) :=
  { h with rx := by simpa [RxWithinBound] using h.rx, status := .inr ⟨c, rfl⟩ }

theorem setSlot0 (h : Inv s) (st : Station) : Inv (s.setSlot0 (some st)) :=
  { h with slots := fun _ => Option.some_ne_none st, rx := by simpa [RxWithinBound] using h.rx }

theorem setSlot1 (h : Inv s) (h0 : s.slot0 ≠ none) (st : Station) : Inv (s.setSlot1 (some st)) :=
  { h with slots := fun _ => h0, rx := by simpa [RxWithinBound] using h.rx }

theorem setBurst (h : Inv s) {c : BitVec 8} (hc : -1 ≤ c.toInt ∧ c.toInt ≤ (s.cfg.maxBurst : Int) - 1) :
    Inv (s.setBurst c) :=
  { h with burst := hc, rx := by simpa [RxWithinBound] using h.rx }

theorem setBv (h : Inv s) {u : BitVectorUnit} (hu : BvWellFormed (s.setBv u)) : Inv (s.setBv u) :=
  { h with rx := by simpa [RxWithinBound] using h.rx, bv := hu }

theorem setRxBuf (h : Inv s) (st : Station) {q : List Byte} (hq : q.length ≤ s.cfg.rxBufMax) :
    Inv (s.setRxBuf st q) where
  slots := by simpa [SlotsInOrder] using h.slots
  burst := by simpa [BurstInRange] using h.burst
  rx a := by
    by_cases ha : a = st
    · subst a; simpa using hq
    · simpa [State.setRxBuf_ne s st a q ha] using h.rx a
  status := by simpa [StatusLegal] using h.status
  bv := by simpa [BvWellFormed] using h.bv

/-- R33 with R108: a buffer that is not full takes one more byte. -/
theorem appendRx (h : Inv s) (st : Station) (x : Byte) (hroom : (s.station st).rxBuf.length ≠ s.cfg.rxBufMax) :
    Inv (s.appendRx st x) := by
  have hle := h.rx st
  refine h.setRxBuf st ?_
  rw [List.length_append, List.length_singleton]
  omega

theorem clearRx (h : Inv s) (st : Station) : Inv (s.clearRx st) := h.setRxBuf st (Nat.zero_le _)

/-- R107: what the buffer holds after a bad start byte is unspecified within R18's bound. -/
theorem releaseRx (h : Inv s) (st : Station) : Inv (s.releaseRx st) :=
  (h.setRxBuf st (List.length_take_le _ _)).useFree

/-- R84, R85: a transfer moves the counter within its range. -/
theorem afterTransfer (h : Inv s) (hm : 1 ≤ s.cfg.maxBurst ∧ s.cfg.maxBurst ≤ 127) : Inv s.afterTransfer := by
  unfold State.afterTransfer
  split
  · exact h
  · refine h.takeDraw.setBurst ?_
    rw [State.takeDraw_cfg]
    exact burstNext_range hm.1 hm.2 _ h.burst.2

end Inv

/-! ## The invariant, step by step -/

/-- Settles O7: power-on is a state that RESET leaves as it is. -/
theorem powerOnSatisfiesTheInvariant : Obligations.PowerOnSatisfiesTheInvariant := by
  intro cfg h
  exact inv_resetState (State.powerOn cfg) (maxBurst_of_admitted h).1

/-- The invariant under an admitted configuration, which the counter's range needs at every transfer (R85). -/
structure AdmittedInv (s : State) : Prop where
  admitted : admitted s.cfg = true
  inv : Inv s

theorem admittedInv_linkClosed : LinkClosed (fun _ => True) AdmittedInv where
  emit _ e h := ⟨h.admitted, h.inv.emit e⟩
  fault _ c h _ := ⟨h.admitted, h.inv.setStatus c⟩
  deserializer _ st shift n _ h := ⟨by simpa using h.admitted, h.inv.setDeserializer st shift n⟩
  append _ st x _ hroom h := ⟨by simpa using h.admitted, h.inv.appendRx st x hroom⟩
  clear _ st _ h := ⟨by simpa using h.admitted, h.inv.clearRx st⟩
  release _ st _ h := ⟨by simpa using h.admitted, h.inv.releaseRx st⟩
  transfer _ h := ⟨by simpa using h.admitted, h.inv.afterTransfer (maxBurst_of_admitted h.admitted)⟩

theorem admittedInv_writersKeep {i : Instr} (hi : WellFormed i) : WritersKeep i AdmittedInv where
  reset _ s h := ⟨h.admitted, inv_resetState s (maxBurst_of_admitted h.admitted).1⟩
  slot0 st _ _ _ h := ⟨h.admitted, h.inv.setSlot0 st⟩
  slot1 st _ _ h0 _ h := ⟨h.admitted, h.inv.setSlot1 h0 st⟩
  bound st _ _ h := ⟨by simpa using h.admitted, h.inv.setBound st true⟩
  bvNew _ s h := ⟨h.admitted, h.inv.setBv (bvWellFormed_reset s)⟩
  bvLoad data b e he s q hq h := by
    subst he
    exact ⟨h.admitted, h.inv.setBv (bvWellFormed_bvOfBytes s (hq.trans hi))⟩
  bvWrite _ v _ _ _ hn h := ⟨h.admitted, h.inv.setBv (bvWellFormed_bvWrite h.inv.bv hn v)⟩

/-- Settles O8: the link rules, the writers of a decoded command and the fetch each keep the invariant, under the
admitted configuration that every step has. -/
theorem everyStepKeepsTheInvariant : Obligations.EveryStepKeepsTheInvariant := by
  intro s t hs h
  have hadm : admitted s.cfg = true := (step_next_cases h).1
  have ht : AdmittedInv t :=
    step_keeps admittedInv_linkClosed (fun _ => admittedInv_writersKeep)
      (fun _ q hu => ⟨hu.admitted, hu.inv.setInput q⟩) h ⟨hadm, hs⟩
  exact ht.inv

end Sys2Proof.Machine

namespace Sys2Proof.Machine

/-! ## The bit space under the commands that do not write it (20_memory.md R30, R31) -/

/-- No link rule touches the bit vector unit. -/
theorem bv_linkClosed (u : BitVectorUnit) : LinkClosed (fun _ => True) (fun t => t.bv = u) where
  emit _ _ h := h
  fault _ _ h _ := h
  deserializer _ _ _ _ _ h := by simpa using h
  append _ _ _ _ _ h := by simpa using h
  clear _ _ _ h := by simpa using h
  release _ _ _ h := by simpa using h
  transfer _ h := by simpa using h

/-- RESET, BV_NEW, BV_FROM_BYTES and BV_SET are the only writers of the unit. -/
theorem bv_writersKeep {i : Instr} (hreset : i ≠ .reset) (hnew : i ≠ .bvNew)
    (hload : ∀ d b e, i ≠ .bvFromBytes d b e) (hset : ∀ n v, i ≠ .bvSet n v) (u : BitVectorUnit) :
    WritersKeep i (fun t => t.bv = u) where
  reset hi := absurd hi hreset
  slot0 _ _ _ _ h := h
  slot1 _ _ _ _ _ h := h
  bound _ _ _ h := by simpa using h
  bvNew hi := absurd hi hnew
  bvLoad d b e hi := absurd hi (hload d b e)
  bvWrite n v hi := absurd hi (hset n v)

/-- Settles O51: the whole unit, and so its length and every reading, is as before. -/
theorem otherCommandsLeaveTheBitSpaceAlone : Obligations.OtherCommandsLeaveTheBitSpaceAlone := by
  intro i s t hreset hnew hload hset h
  have hbv : t.bv = s.bv :=
    exec_keeps (bv_linkClosed s.bv) (bv_writersKeep hreset hnew hload hset s.bv) rfl h
  exact ⟨congrArg BitVectorUnit.len hbv, fun a => by rw [hbv]⟩

/-! ## The byte boundary (20_memory.md R36, 70_reset_and_hazards.md R157) -/

@[simp] theorem raiseFault_final_station (c : FaultCode) (s : State) (a : Station) :
    (raiseFault c s).final.station a = s.station a := by
  unfold raiseFault
  split <;> simp

section
variable {α : Type} {f : StationState → α} (hf : ∀ v q, f { v with rxBuf := q } = f v) (st a : Station)
include hf

theorem State.setRxBuf_field (s : State) (q : List Byte) : f ((s.setRxBuf st q).station a) = f (s.station a) :=
  s.setStation_field st a f (hf _ q)

theorem startCheck_station_field (q : List Byte) (s : State) :
    f ((startCheck st q s).final.station a) = f (s.station a) := by
  unfold startCheck
  split
  · rfl
  · rw [raiseFault_final_station, State.releaseRx, State.useFree_station, State.setRxBuf_field hf, State.emit_station]

/-- Once the start byte is checked, acceptance and a parity mismatch only emit (R105, R106). -/
theorem processFrame_station_field (q : List Byte) (s : State) :
    f ((processFrame st q s).final.station a) = f (s.station a) := by
  refine Run.andThen_keeps (P := fun t => f (t.station a) = f (s.station a))
    (startCheck_station_field hf st a q s) fun t ht => ?_
  dsimp only
  split
  · simpa [acceptSimple, netReceive] using ht
  · unfold acceptParity
    dsimp only
    split
    · simpa [netReceive] using ht
    · simpa using ht

/-- Byte receive writes of the stations their receive buffers only, whether it keeps the byte, completes a frame or
faults (R100, R107, R108). -/
theorem receiveByte_station_field (x : Byte) (s : State) :
    f ((receiveByte st x s).final.station a) = f (s.station a) := by
  have happend : f ((s.appendRx st x).station a) = f (s.station a) := s.setRxBuf_field hf st a _
  unfold receiveByte
  split
  · rw [raiseFault_final_station]
  · dsimp only
    split
    · refine Run.andThen_keeps (P := fun t => f (t.station a) = f (s.station a))
        ((processFrame_station_field hf st a _ _).trans happend) fun t ht => ?_
      exact (t.setRxBuf_field hf st a []).trans ht
    · exact happend

end

/-- The eighth bit writes 0, which is 7 + 1 modulo 8, before the byte goes on to byte receive or to the fault (R116). -/
theorem receiveBit_rxCount (st : Station) (b : Bit) (s : State) :
    ((receiveBit st b s).final.station st).rxCount = (s.station st).rxCount + 1 := by
  by_cases h7 : (s.station st).rxCount = 7
  · have hwrap : ((s.setDeserializer st 0x00 0).station st).rxCount = (s.station st).rxCount + 1 := by
      rw [State.setDeserializer_same, h7]
      rfl
    rw [receiveBit_eighth b h7]
    split
    · rw [receiveByte_station_field (f := StationState.rxCount) (fun _ _ => rfl), hwrap]
    · rw [raiseFault_final_station, hwrap]
  · have hlt : (s.station st).rxCount.toNat < 7 := by bv_omega
    rw [receiveBit_early b hlt, Run.final_done, State.setDeserializer_same]
    simp [BitVec.ofNat_add]

/-- Settles O19: PHY_RECEIVE of a running engine is the bit receive rule. -/
theorem everyReceivedBitMovesTheByteBoundaryByOne : Obligations.EveryReceivedBitMovesTheByteBoundaryByOne := by
  intro st b s t hs h
  have hexec : exec (.phyReceive st b) s = .next (receiveBit st b s).final := perform_running _ _ hs
  cases hexec.symm.trans h
  exact receiveBit_rxCount st b s

end Sys2Proof.Machine

/-! PROOFS. The command interface's decoder and encoder (30_encoding.md R55 to R64): the operand fields of each format
read back, what a whole command decodes to, and the steps that take no legal command. -/

namespace Sys2Proof

/-! ## Operand lengths (R59) -/

section
variable {f : Format} {body : List Byte} {n : Nat}

/-- The length read from LEN16 does not depend on the bytes after it. -/
theorem operandLength_append (h : operandLength f body = some n) (rest : List Byte) :
    operandLength f (body ++ rest) = some n := by
  cases f with
  | cf0 | cf1 | cf2 | cf2b | cf4 | cf5 => exact h
  | cf3 =>
    match body, h with
    | _ :: _ :: _ :: _, h => exact h
  | cf6 =>
    match body, h with
    | _ :: _ :: _, h => exact h

/-- LEN16 stands among the operand bytes that it counts. -/
theorem operandLength_take (h : operandLength f body = some n) : operandLength f (body.take n) = some n := by
  cases f with
  | cf0 | cf1 | cf2 | cf2b | cf4 | cf5 => exact h
  | cf3 =>
    match body, h with
    | _ :: hi :: lo :: _, h =>
      cases h
      simp only [Nat.add_comm 3, List.take_succ_cons, operandLength]
  | cf6 =>
    match body, h with
    | hi :: lo :: _, h =>
      cases h
      simp only [Nat.add_comm 10, List.take_succ_cons, operandLength]

end

/-! ## The operands of each format, read back from the encoder's bytes (R56, R57) -/

section
variable (s : Station) (b : Bit) (x : Byte) (data : List Byte) (v w : BitVec 32)

@[simp] theorem readStation_encoded (f : Station → Instr) : readStation f [stationByte s] = some (f s) := by
  simp [readStation]

@[simp] theorem readStationBit_encoded (f : Station → Bit → Instr) :
    readStationBit f [stationByte s, bitByte b] = some (f s b) := by
  simp [readStationBit]

@[simp] theorem readStationByte_encoded (f : Station → Byte → Instr) :
    readStationByte f [stationByte s, x] = some (f s x) := by
  simp [readStationByte]

@[simp] theorem readStationData_encoded (f : Station → List Byte → Instr) (n : Nat) :
    readStationData f (stationByte s :: (len16Bytes n ++ data)) = some (f s data) := by
  simp [readStationData, len16Bytes]

@[simp] theorem readIndexBit_encoded (f : BitVec 32 → Bit → Instr) :
    readIndexBit f (word32Bytes v ++ [bitByte b]) = some (f v b) := by
  simp only [word32Bytes, List.cons_append, List.nil_append, readIndexBit, bitOf_bitByte, Option.map_some,
    word32_word32Bytes]

@[simp] theorem readIndex_encoded (f : BitVec 32 → Instr) : readIndex f (word32Bytes v) = some (f v) := by
  simp only [word32Bytes, readIndex, word32_word32Bytes]

theorem readDataRange_encoded (f : List Byte → BitVec 32 → BitVec 32 → Instr) (h : data.length ≤ maxDataBytes) :
    readDataRange f (len16Bytes data.length ++ data ++ word32Bytes v ++ word32Bytes w) = some (f data v w) := by
  simp only [len16Bytes, List.cons_append, List.nil_append, List.append_assoc, readDataRange,
    Laws.len16_len16Bytes h, List.drop_left, List.take_left]
  simp only [word32Bytes, List.cons_append, List.nil_append, word32_word32Bytes]

end

/-! ## The bytes of each format that spell operands (R57, R61) -/

section
variable {body : List Byte} {i : Instr}

theorem readStation_eq_some {f : Station → Instr} (h : readStation f body = some i) :
    ∃ s, i = f s ∧ body = [stationByte s] := by
  unfold readStation at h
  split at h
  · obtain ⟨s, hs, rfl⟩ := Option.map_eq_some_iff.1 h
    exact ⟨s, rfl, by rw [stationOf_eq_some hs]⟩
  · cases h

theorem readStationBit_eq_some {f : Station → Bit → Instr} (h : readStationBit f body = some i) :
    ∃ s b, i = f s b ∧ body = [stationByte s, bitByte b] := by
  unfold readStationBit at h
  split at h
  · obtain ⟨s, hs, hbit⟩ := Option.bind_eq_some_iff.1 h
    obtain ⟨b, hb, rfl⟩ := Option.map_eq_some_iff.1 hbit
    exact ⟨s, b, rfl, by rw [stationOf_eq_some hs, bitOf_eq_some hb]⟩
  · cases h

theorem readStationByte_eq_some {f : Station → Byte → Instr} (h : readStationByte f body = some i) :
    ∃ s x, i = f s x ∧ body = [stationByte s, x] := by
  unfold readStationByte at h
  split at h
  · obtain ⟨s, hs, rfl⟩ := Option.map_eq_some_iff.1 h
    exact ⟨s, _, rfl, by rw [stationOf_eq_some hs]⟩
  · cases h

/-- LEN16 is a CF3 command's own number of data bytes where the command is as long as R59 says. -/
theorem readStationData_eq_some {f : Station → List Byte → Instr}
    (hlen : operandLength .cf3 body = some body.length) (h : readStationData f body = some i) :
    ∃ s data, i = f s data ∧ body = stationByte s :: (len16Bytes data.length ++ data) := by
  unfold readStationData at h
  split at h
  · rename_i s' hi lo data
    obtain ⟨s, hs, rfl⟩ := Option.map_eq_some_iff.1 h
    have hdata : data.length = len16 hi lo := by
      simp only [operandLength, List.length_cons, Option.some.injEq] at hlen
      omega
    exact ⟨s, data, rfl, by rw [hdata, len16Bytes_len16, stationOf_eq_some hs]; rfl⟩
  · cases h

theorem readIndexBit_eq_some {f : BitVec 32 → Bit → Instr} (h : readIndexBit f body = some i) :
    ∃ v b, i = f v b ∧ body = word32Bytes v ++ [bitByte b] := by
  unfold readIndexBit at h
  split at h
  · obtain ⟨b, hb, rfl⟩ := Option.map_eq_some_iff.1 h
    exact ⟨_, b, rfl, by rw [word32Bytes_word32, bitOf_eq_some hb]; rfl⟩
  · cases h

theorem readIndex_eq_some {f : BitVec 32 → Instr} (h : readIndex f body = some i) :
    ∃ v, i = f v ∧ body = word32Bytes v := by
  unfold readIndex at h
  split at h
  · cases h
    exact ⟨_, rfl, (word32Bytes_word32 ..).symm⟩
  · cases h

/-- The eight bytes after the data show that a CF6 command has as many data bytes as LEN16 counts. -/
theorem readDataRange_eq_some {f : List Byte → BitVec 32 → BitVec 32 → Instr} (h : readDataRange f body = some i) :
    ∃ data v w, i = f data v w ∧ body = len16Bytes data.length ++ data ++ word32Bytes v ++ word32Bytes w := by
  unfold readDataRange at h
  split at h
  · rename_i hi lo tail
    split at h
    · rename_i b0 b1 b2 b3 e0 e1 e2 e3 htail
      cases h
      have hn : (tail.take (len16 hi lo)).length = len16 hi lo := by
        have := congrArg List.length htail
        simp only [List.length_drop, List.length_cons, List.length_nil] at this
        rw [List.length_take]
        omega
      refine ⟨_, _, _, rfl, ?_⟩
      rw [hn, len16Bytes_len16, word32Bytes_word32, word32Bytes_word32]
      conv_lhs => rw [← List.take_append_drop (len16 hi lo) tail, htail]
      simp
    · cases h
  · cases h

end

/-! ## Reserved operand bits (R57, R60) -/

section
variable {s : Byte} (h : 2 ≤ s.toNat)
include h

theorem readStation_reserved (f : Station → Instr) : readStation f [s] = none := by
  simp [readStation, stationOf_eq_none h]

theorem readStationBit_reserved_station (f : Station → Bit → Instr) (b : Byte) : readStationBit f [s, b] = none := by
  simp [readStationBit, stationOf_eq_none h]

theorem readStationBit_reserved_bit (f : Station → Bit → Instr) (a : Byte) : readStationBit f [a, s] = none := by
  simp [readStationBit, bitOf_eq_none h]

theorem readStationByte_reserved (f : Station → Byte → Instr) (x : Byte) : readStationByte f [s, x] = none := by
  simp [readStationByte, stationOf_eq_none h]

theorem readStationData_reserved (f : Station → List Byte → Instr) (hi lo : Byte) (data : List Byte) :
    readStationData f (s :: hi :: lo :: data) = none := by
  simp [readStationData, stationOf_eq_none h]

theorem readIndexBit_reserved (f : BitVec 32 → Bit → Instr) (i0 i1 i2 i3 : Byte) :
    readIndexBit f [i0, i1, i2, i3, s] = none := by
  simp [readIndexBit, bitOf_eq_none h]

end

/-! ## A whole command -/

theorem Opcode.byte_injective : Function.Injective Opcode.byte := fun op op' h =>
  Option.some.inj (by rw [← opcodeOf_byte op, h, opcodeOf_byte])

/-- These operand bytes are as many as the opcode's format asks for (R59), and they spell the instruction. -/
structure Spells (op : Opcode) (body : List Byte) (i : Instr) : Prop where
  length : operandLength op.format body = some body.length
  operands : readOperands op body = some i

theorem encodeShape (i : Instr) : Laws.EncodeShape.Statement i := by
  cases i with
  | reset => exact Laws.EncodeShape.reset
  | rdStatus => exact Laws.EncodeShape.rdStatus
  | medRegister s => exact Laws.EncodeShape.medRegister s
  | medSend s b => exact Laws.EncodeShape.medSend s b
  | phySend s data => exact Laws.EncodeShape.phySend s data
  | phyReceive s b => exact Laws.EncodeShape.phyReceive s b
  | dlBind s => exact Laws.EncodeShape.dlBind s
  | dlSend s data => exact Laws.EncodeShape.dlSend s data
  | dlReceive s x => exact Laws.EncodeShape.dlReceive s x
  | bvNew => exact Laws.EncodeShape.bvNew
  | bvFromBytes data first last => exact Laws.EncodeShape.bvFromBytes data first last
  | bvSet index b => exact Laws.EncodeShape.bvSet index b
  | bvGet index => exact Laws.EncodeShape.bvGet index
  | bvLen => exact Laws.EncodeShape.bvLen
  | bvToBytes => exact Laws.EncodeShape.bvToBytes
  | netSend s => exact Laws.EncodeShape.netSend s

/-- Byte 0 tells which opcode it is; its operand bytes are then those of its format. -/
theorem readOperands_of_encode {i : Instr} {op : Opcode} {body : List Byte} (hw : WellFormed i)
    (h : encode i = op.byte :: body) : readOperands op body = some i := by
  cases i <;> (obtain ⟨hop, rfl⟩ := List.cons.inj h; cases Opcode.byte_injective hop)
  case bvFromBytes data first last => exact readDataRange_encoded data first last _ hw
  all_goals simp [readOperands]

/-- As many operand bytes as R59 asks for spell only the instruction whose encoding has them. -/
theorem encode_of_readOperands {i : Instr} {op : Opcode} {body : List Byte}
    (hlen : operandLength op.format body = some body.length) (h : readOperands op body = some i) :
    encode i = op.byte :: body := by
  cases op with
  | reset | rdStatus | bvNew | bvLen | bvToBytes =>
    cases h
    rw [List.length_eq_zero_iff.1 (Option.some.inj hlen).symm]
    rfl
  | medRegister | dlBind | netSend => obtain ⟨s, rfl, rfl⟩ := readStation_eq_some h; rfl
  | medSend | phyReceive => obtain ⟨s, b, rfl, rfl⟩ := readStationBit_eq_some h; rfl
  | phySend | dlSend => obtain ⟨s, data, rfl, rfl⟩ := readStationData_eq_some hlen h; rfl
  | dlReceive => obtain ⟨s, x, rfl, rfl⟩ := readStationByte_eq_some h; rfl
  | bvFromBytes => obtain ⟨data, v, w, rfl, rfl⟩ := readDataRange_eq_some h; rfl
  | bvSet => obtain ⟨v, b, rfl, rfl⟩ := readIndexBit_eq_some h; rfl
  | bvGet => obtain ⟨v, rfl, rfl⟩ := readIndex_eq_some h; rfl

/-- A well-formed instruction's encoding is an opcode byte and operand bytes that spell it. -/
theorem exists_spells {i : Instr} (hw : WellFormed i) :
    ∃ op body, encode i = Opcode.byte op :: body ∧ Spells op body i := by
  obtain ⟨op, body, henc, -, hlen⟩ := encodeShape i
  exact ⟨op, body, henc, hlen hw, readOperands_of_encode hw henc⟩

/-! ## The decoder's answers (R59, R60, R61) -/

section
variable {op : Opcode} {body rest : List Byte} {i : Instr}

theorem decode_unlisted {b : Byte} (h : opcodeOf b = none) : decode (b :: rest) = .illegal rest := by
  simp [decode, h]

/-- Where operand bytes are as many as R59 asks for, the answer is what they spell, with the stream after them. -/
theorem decode_whole (hlen : operandLength op.format body = some body.length) :
    decode (op.byte :: (body ++ rest)) = (readOperands op body).elim (.illegal rest) (.command · rest) := by
  simp only [decode, opcodeOf_byte, operandLength_append hlen rest, List.length_append, List.take_left, List.drop_left]
  rw [if_neg (by omega)]
  cases readOperands op body <;> rfl

theorem decode_of_spells (h : Spells op body i) : decode (op.byte :: (body ++ rest)) = .command i rest := by
  rw [decode_whole h.length, h.operands]
  rfl

theorem decode_reserved (hlen : operandLength op.format body = some body.length) (h : readOperands op body = none) :
    decode (op.byte :: (body ++ rest)) = .illegal rest := by
  rw [decode_whole hlen, h]
  rfl

/-- A command's bytes without the last of them are truncated: LEN16 is missing, or it asks for more. -/
theorem decode_cut {p q : List Byte} (hlen : operandLength op.format (p ++ q) = some (p ++ q).length) (hq : q ≠ []) :
    decode (op.byte :: p) = .truncated := by
  cases hp : operandLength op.format p with
  | none => simp [decode, hp]
  | some n =>
    have hn : n = (p ++ q).length := Option.some.inj ((operandLength_append hp q).symm.trans hlen)
    have hshort : p.length < n := by
      have := List.length_pos_iff.2 hq
      rw [hn, List.length_append]
      omega
    simp [decode, hp, hshort]

/-- The only way to a command is an opcode byte and operand bytes that spell it. -/
theorem exists_spells_of_decode {stream : List Byte} (h : decode stream = .command i rest) :
    ∃ op body, stream = Opcode.byte op :: (body ++ rest) ∧ Spells op body i := by
  unfold decode at h
  split at h
  · cases h
  · rename_i b body
    split at h
    · cases h
    · rename_i op hop
      split at h
      · cases h
      · rename_i n hn
        split at h
        · cases h
        · rename_i hshort
          split at h
          · rename_i j hj
            cases h
            have hlen : (body.take n).length = n := List.length_take_of_le (by omega)
            refine ⟨op, body.take n, ?_, ?_, hj⟩
            · rw [List.take_append_drop, opcodeOf_eq_some hop]
            · rw [operandLength_take hn, hlen]
          · cases h

end

/-! ## The decoder and the encoder -/

/-- Settles O52: the encoding spells its instruction, and the decoder answers what is spelled. -/
theorem decodeEncodeRoundTrip : Obligations.DecodeEncodeRoundTrip := by
  intro i rest hw
  obtain ⟨op, body, henc, hspells⟩ := exists_spells hw
  rw [henc]
  exact decode_of_spells hspells

/-- Settles O53: each format's operand bytes are those the encoder writes for the operands read from them. -/
theorem decodedCommandsHaveOneSpelling : Obligations.DecodedCommandsHaveOneSpelling := by
  intro i q rest h
  obtain ⟨op, body, hq, hspells⟩ := exists_spells_of_decode h
  refine ⟨?_, decode_wellFormed h⟩
  rw [hq, encode_of_readOperands hspells.length hspells.operands]
  rfl

/-- Settles O54: the cut leaves the opcode byte with fewer operand bytes than R59 asks for. -/
theorem aTruncatedCommandIsRefusedByTheDecoder : Obligations.ATruncatedCommandIsRefusedByTheDecoder := by
  intro i p q hw henc hp hq
  obtain ⟨op, body, hshape, hspells⟩ := exists_spells hw
  obtain ⟨b, p, rfl⟩ := List.exists_cons_of_ne_nil hp
  obtain ⟨rfl, rfl⟩ := List.cons.inj (hshape.symm.trans henc)
  exact decode_cut hspells.length hq

/-- The opcode bytes that R60 lists are no opcode of R58. -/
theorem opcodeOf_unlisted (b : Byte)
    (h : b = 0x00 ∨ (0x03 ≤ b.toNat ∧ b.toNat ≤ 0x0F) ∨ (0x12 ≤ b.toNat ∧ b.toNat ≤ 0x1F) ∨
      (0x22 ≤ b.toNat ∧ b.toNat ≤ 0x2F) ∨ (0x33 ≤ b.toNat ∧ b.toNat ≤ 0x3F) ∨ (0x46 ≤ b.toNat ∧ b.toNat ≤ 0x4F) ∨
      0x51 ≤ b.toNat) : opcodeOf b = none := by
  revert b
  decide

/-- Settles O55: an unlisted opcode is illegal by itself; a reserved operand bit makes a whole command illegal, in each
format that has an STN or BIT field. -/
theorem illegalEncodings : Obligations.IllegalEncodings := by
  refine ⟨fun b rest hb => decode_unlisted (opcodeOf_unlisted b hb), fun op s b x rest hs => ⟨?_, ?_, ?_⟩, ?_, ?_⟩
  · have hread f := readStation_reserved hs f
    rintro (rfl | rfl | rfl)
    · exact decode_reserved (op := .medRegister) (body := [s]) rfl (hread _)
    · exact decode_reserved (op := .dlBind) (body := [s]) rfl (hread _)
    · exact decode_reserved (op := .netSend) (body := [s]) rfl (hread _)
  · rintro (rfl | rfl | rfl)
    · exact decode_reserved (op := .medSend) (body := [s, x]) rfl (readStationBit_reserved_station hs _ x)
    · exact decode_reserved (op := .phyReceive) (body := [s, x]) rfl (readStationBit_reserved_station hs _ x)
    · exact decode_reserved (op := .dlReceive) (body := [s, x]) rfl (readStationByte_reserved hs _ x)
  · rintro (rfl | rfl)
    · exact decode_reserved (op := .medSend) (body := [b, s]) rfl (readStationBit_reserved_bit hs _ b)
    · exact decode_reserved (op := .phyReceive) (body := [b, s]) rfl (readStationBit_reserved_bit hs _ b)
  · intro op s data rest hs hdata hop
    have hread f := readStationData_reserved hs f (BitVec.ofNat 8 (data.length / 256))
      (BitVec.ofNat 8 data.length) data
    have hlen : operandLength .cf3
        (s :: BitVec.ofNat 8 (data.length / 256) :: BitVec.ofNat 8 data.length :: data) = some (data.length + 3) := by
      rw [operandLength, Laws.len16_len16Bytes hdata, Nat.add_comm]
    rcases hop with rfl | rfl
    · exact decode_reserved (op := .phySend) hlen (hread _)
    · exact decode_reserved (op := .dlSend) hlen (hread _)
  · intro i0 i1 i2 i3 b rest hb
    exact decode_reserved (op := .bvSet) (body := [i0, i1, i2, i3, b]) rfl (readIndexBit_reserved hb _ i0 i1 i2 i3)

/-- Settles O56: byte 0 command by command; the worked encodings decode by the round trip. -/
theorem workedEncodings : Obligations.WorkedEncodings := by
  refine ⟨fun i => ?_, by decide, fun p hp => ?_⟩
  · cases i <;> rfl
  · obtain ⟨hw, henc⟩ : WellFormed p.2 ∧ encode p.2 = p.1 := by
      revert hp
      revert p
      decide
    refine ⟨?_, henc⟩
    rw [← henc, ← List.append_nil (encode p.2)]
    exact decodeEncodeRoundTrip p.2 [] hw

end Sys2Proof

namespace Sys2Proof.Machine

/-! ## Steps that take no legal command (45_network_system.md R121, R129) -/

section
variable {s : State}

theorem step_not_admitted (h : admitted s.cfg = false) : step s = .refused .configurationNotAdmitted := by
  simp [step, takeCommand, h]

variable (ha : admitted s.cfg = true)
include ha

theorem step_illegal {rest : List Byte} (h : decode s.input = .illegal rest) :
    step s = takeIllegal (s.setInput rest) := by
  simp [step, takeCommand, ha, h]

theorem step_truncated (h : decode s.input = .truncated) : step s = .refused .truncatedCommand := by
  simp [step, takeCommand, ha, h]

theorem step_endOfStream (h : s.input = []) : step s = .next s := by
  simp [step, takeCommand, ha, h, decode]

end

/-- Settles O58: the sequencer takes the bytes off, then fault entry while running (R131), the gate while halted. -/
theorem stepTakesTheIllegalCommand : Obligations.StepTakesTheIllegalCommand := by
  intro s rest ha hd
  rw [step_illegal ha hd, takeIllegal]
  refine ⟨fun hs => ?_, fun hs => ?_⟩
  · rw [perform_running (s := s.setInput rest) _ _ hs, raiseFault_first _ (s.setInput rest) hs]
    rfl
  · rw [perform_halted (s := s.setInput rest) _ _ hs]
    rfl

/-- Settles O59. -/
theorem stepRefusesTruncatedCommandsAndBadConfigurations :
    Obligations.StepRefusesTruncatedCommandsAndBadConfigurations :=
  fun _ => ⟨step_truncated, step_not_admitted, step_endOfStream⟩

/-! ## Frames (30_encoding.md R46 to R49) -/

/-- The 1 bits of a byte sequence, counted byte by byte. -/
theorem count_true_flatMap_bitsMsbFirst (c : List Byte) :
    (c.flatMap bitsMsbFirst).count true = (c.map popcount).sum := List.count_flatMap

/-- Settles O23: the byte classes of R45 with an ESC before each marker, and the bits counted byte by byte. -/
theorem frameFormats : Obligations.FrameFormats := by
  intro cfg
  refine ⟨rfl, fun b c => ?_, fun c hf => ?_, fun c hf => ?_, fun c => ?_⟩
  · rw [stuff_cons, stuffByte]
    simp only [isMarker_iff]
  · rw [frame, hf]
  · rw [frame, hf]
  · rw [count_true_flatMap_bitsMsbFirst, checkByte]

theorem frame_length_simple {cfg : Config} (h : cfg.framing = .simple) (c : List Byte) :
    (frame cfg c).length = c.length + c.countP (isMarker cfg) + 2 := by
  simp [frame, h, stuff_length]

theorem frame_length_parity {cfg : Config} (h : cfg.framing = .parity) (c : List Byte) :
    (frame cfg c).length = c.length + c.countP (isMarker cfg) + 3 := by
  simp [frame, h, stuff_length]

/-- No PARITY chunk is longer than a bounded `MAX_PAYLOAD` (42_framing_tx.md R90, R92). -/
theorem length_le_of_mem_chunks {cfg : Config} {m : ℕ+} (hf : cfg.framing = .parity) (hm : cfg.maxPayload = some m)
    {data c : List Byte} (h : c ∈ chunks cfg data) : c.length ≤ m := by
  cases data with
  | nil =>
    have hc : c = [] := by
      simp only [chunks] at h
      split at h
      · simpa using h
      · simp at h
    simp [hc]
  | cons b rest =>
    simp only [chunks, hf, hm] at h
    exact length_le_of_mem_piecesOf h

/-- Settles O24: stuffing adds a byte for each marker, of which a chunk of at most 8 bytes has at most 8. -/
theorem frameLengths : Obligations.FrameLengths := by
  intro cfg c
  refine ⟨fun hf => frame_length_simple hf c, fun hf => frame_length_parity hf c, fun hf hm data hc => ?_⟩
  have hchunk : c.length ≤ 8 := length_le_of_mem_chunks hf hm hc
  have hmarkers : c.countP (isMarker cfg) ≤ c.length := List.countP_le_length
  rw [frame_length_parity hf]
  omega

/-! ## Eight received bits (30_encoding.md R50, 44_physical.md R116) -/

theorem execAll_append {is : List Instr} {s t : State} (h : execAll is s = .next t) (js : List Instr) :
    execAll (is ++ js) s = execAll js t := by
  induction is generalizing s with
  | nil => cases h; rfl
  | cons i is ih =>
    simp only [execAll, List.cons_append] at h ⊢
    split at h
    · exact ih h
    · cases h
    · cases h

theorem execAll_singleton (i : Instr) (s : State) : execAll [i] s = exec i s := by
  simp only [execAll]
  cases exec i s <;> rfl

/-- Commands that each run a rule, none of which faults, run the rules one after another. -/
theorem execAll_map_of_done {α : Type} {cmd : α → Instr} {body : α → State → Run}
    (hexec : ∀ x s, s.status = 0x00 → exec (cmd x) s = .next (body x s).final)
    (hfault : ∀ x s, (body x s).FaultsOnce s) {xs : List α} {s t : State} (hs : s.status = 0x00)
    (h : forEach body xs s = .done t) : execAll (xs.map cmd) s = .next t := by
  induction xs generalizing s with
  | nil => cases h; rfl
  | cons x xs ih =>
    have hx := hfault x s
    rw [forEach_cons] at h
    cases hu : body x s with
    | aborted u => rw [hu] at h; cases h
    | done u =>
      rw [hu] at h hx
      simp only [List.map_cons, execAll, hexec x s hs, hu, Run.final_done]
      exact ih (hx.1.trans hs) h

/-- PHY_RECEIVE of a running engine is the bit receive rule. -/
theorem exec_phyReceive_running (st : Station) (b : Bit) (s : State) (hs : s.status = 0x00) :
    exec (.phyReceive st b) s = .next (receiveBit st b s).final := perform_running _ _ hs

/-- DL_RECEIVE of a running engine is the byte receive rule. -/
theorem exec_dlReceive_running (st : Station) (x : Byte) (s : State) (hs : s.status = 0x00) :
    exec (.dlReceive st x) s = .next (receiveByte st x s).final := perform_running _ _ hs

/-- Bits that complete no byte cannot fault. -/
theorem receiveBits_early {st : Station} {bits : List Bit} {s : State}
    (h : (s.station st).rxCount.toNat + bits.length < 8) : ∃ t, forEach (receiveBit st) bits s = .done t := by
  induction bits generalizing s with
  | nil => exact ⟨s, rfl⟩
  | cons b bits ih =>
    rw [List.length_cons] at h
    rw [forEach_cons, receiveBit_early b (by omega), Run.done_andThen]
    refine ih ?_
    rw [State.setDeserializer_same, BitVec.toNat_ofNat]
    omega

/-- Settles O18: the first seven bits run without a fault, so the eighth PHY_RECEIVE still runs its rule, and the rules
together are byte receive of x. -/
theorem eightBitsMsbFirstAreOneByte : Obligations.EightBitsMsbFirstAreOneByte := by
  intro st x s hs hcount hbound
  obtain ⟨bits, last, hbits⟩ : ∃ bits last, bitsMsbFirst x = bits ++ [last] :=
    ⟨(bitsMsbFirst x).dropLast, x.getLsbD 0, rfl⟩
  have hlen : bits.length = 7 := by simpa using (congrArg List.length hbits).symm
  obtain ⟨t, ht⟩ := receiveBits_early (st := st) (bits := bits) (s := s) (by simp [hcount, hlen])
  have hstatus : t.status = 0x00 := by
    have hfaults := forEach_faultsOnce (receiveBit_faultsOnce st) bits s
    rw [ht] at hfaults
    exact hfaults.1.trans hs
  have hbyte : receiveBit st last t = receiveByte st x (s.setDeserializer st 0x00 0) := by
    rw [← receiveBits_byte x hcount hbound, hbits, forEach_append, ht]
    exact (Run.andThen_done _).symm
  calc execAll ((bitsMsbFirst x).map (.phyReceive st)) s
      = execAll [.phyReceive st last] t := by
        rw [hbits, List.map_append]
        exact execAll_append (execAll_map_of_done (exec_phyReceive_running st) (receiveBit_faultsOnce st) hs ht) _
    _ = .next (receiveByte st x (s.setDeserializer st 0x00 0)).final := by
        rw [execAll_singleton, exec_phyReceive_running st last t hstatus, hbyte]
    _ = exec (.dlReceive st x) (s.setDeserializer st 0x00 0) :=
        (exec_dlReceive_running st x _ (by simpa using hs)).symm

end Sys2Proof.Machine

/-! PROOFS. The bit vector unit's commands (40_bitvector.md R70 to R77): what each command of a running engine runs, the
cases of its rule, and the bits that the byte transfers load and return. -/

namespace Sys2Proof.Machine

/-! ## The bits of a byte sequence (20_memory.md R32) -/

/-- Bit j of byte k, counted from the MSB. -/
theorem byteSequenceBit_mul_add (q : List Byte) (k : Nat) {j : Nat} (hj : j < 8) :
    byteSequenceBit q (8 * k + j) = (q.getD k 0x00).getLsbD (7 - j) := by
  have hbyte : (8 * k + j) / 8 = k := by omega
  have hbit : (8 * k + j) % 8 = j := by omega
  rw [byteSequenceBit, hbyte, hbit]

/-- A byte sequence has no 1 beyond its last byte. -/
theorem byteSequenceBit_of_length_le {q : List Byte} {i : Nat} (h : 8 * q.length ≤ i) :
    byteSequenceBit q i = false := by
  rw [byteSequenceBit, List.getD_eq_default _ _ (by omega)]
  exact BitVec.getLsbD_zero

theorem lt_and_byteSequenceBit (q : List Byte) (i : Nat) :
    (decide (i < 8 * q.length) && byteSequenceBit q i) = byteSequenceBit q i := by
  by_cases h : i < 8 * q.length
  · simp [h]
  · simp [h, byteSequenceBit_of_length_le (Nat.not_lt.1 h)]

/-- The bound of a loaded vector hides nothing: the bits beyond it are 0 in the sequence too. -/
theorem bvRead_bvOfBytes_eq (q : List Byte) (i : Nat) : bvRead (bvOfBytes q) i = byteSequenceBit q i :=
  (bvRead_bvOfBytes q i).trans (lt_and_byteSequenceBit q i)

/-- Exporting a vector loaded from bytes returns them (40_bitvector.md R76). -/
theorem bvBytes_bvOfBytes (q : List Byte) : bvBytes (bvOfBytes q) = q := by
  refine eq_of_byteSequenceBit ?_ fun i => ?_
  · rw [bvBytes_length, bvOfBytes_len]
    omega
  · rw [byteSequenceBit_bvBytes, bvOfBytes_len, bvRead_bvOfBytes_eq, lt_and_byteSequenceBit]

/-- Byte k of the bytes from b up to e is byte b + k of the whole. -/
theorem getD_drop_take {α : Type} {b e k : Nat} (h : b + k < e) (data : List α) (d : α) :
    ((data.take e).drop b).getD k d = data.getD (b + k) d := by
  rw [List.getD_eq_getElem?_getD, List.getElem?_drop, List.getElem?_take_of_lt h, List.getD_eq_getElem?_getD]

/-! ## The rules, case by case -/

/-- Fault entry while no fault has been recorded, as the state it leaves (60_exceptions.md R131). -/
theorem raiseFault_first_final (c : FaultCode) {s : State} (hs : s.status = 0x00) :
    (raiseFault c s).final = { s with status := c.code, trace := s.trace ++ [.fault c] } := by
  rw [raiseFault_first c s hs]
  rfl

section
variable (s : State)

@[simp] theorem raiseFault_final_bv (c : FaultCode) : (raiseFault c s).final.bv = s.bv := by
  unfold raiseFault
  split <;> rfl

theorem loadBytes_of_not_range {data : List Byte} {b e : BitVec 32}
    (h : ¬ (0 ≤ b.toInt ∧ b.toInt ≤ e.toInt ∧ e.toInt ≤ data.length)) :
    loadBytes data b e s = raiseFault .bvBadRange s := if_neg h

theorem loadBytes_of_range {data : List Byte} {b e : BitVec 32}
    (h : 0 ≤ b.toInt ∧ b.toInt ≤ e.toInt ∧ e.toInt ≤ data.length) :
    loadBytes data b e s = .done (s.setBv (bvOfBytes ((data.take e.toInt.toNat).drop b.toInt.toNat))) := if_pos h

theorem setBit_of_neg {index : BitVec 32} (h : index.toInt < 0) (v : Bit) :
    setBit index v s = raiseFault .bvNegIndex s := if_pos h

theorem setBit_of_nonneg {index : BitVec 32} (h : 0 ≤ index.toInt) (v : Bit) :
    setBit index v s = .done (s.setBv (bvWrite s.bv index.toInt.toNat v)) := if_neg (not_lt.2 h)

theorem getBit_of_neg {index : BitVec 32} (h : index.toInt < 0) :
    getBit index s = raiseFault .bvNegIndex s := if_pos h

theorem getBit_of_nonneg {index : BitVec 32} (h : 0 ≤ index.toInt) :
    getBit index s = .done (s.emit (.result (.bit (bvRead s.bv index.toInt.toNat)))) := if_neg (not_lt.2 h)

/-- BV_SET's rule never lowers the known length: it raises it or faults (R72, R77). -/
theorem bvLen_le_setBit (index : BitVec 32) (v : Bit) : s.bv.len ≤ (setBit index v s).final.bv.len := by
  rcases lt_or_ge index.toInt 0 with h | h
  · rw [setBit_of_neg s h, raiseFault_final_bv]
  · rw [setBit_of_nonneg s h, Run.final_done, State.setBv_bv, bvWrite_len]
    exact le_max_left _ _

end

/-! ## The commands of a running engine -/

section
variable {s : State} (hs : s.status = 0x00)
include hs

theorem exec_bvNew_running : exec .bvNew s = .next (s.setBv BitVectorUnit.reset) :=
  perform_running _ (fun s => .done (s.setBv BitVectorUnit.reset)) hs

theorem exec_bvFromBytes_running (data : List Byte) (b e : BitVec 32) :
    exec (.bvFromBytes data b e) s = .next (loadBytes data b e s).final := perform_running _ _ hs

theorem exec_bvSet_running (index : BitVec 32) (v : Bit) :
    exec (.bvSet index v) s = .next (setBit index v s).final := perform_running _ _ hs

theorem exec_bvGet_running (index : BitVec 32) :
    exec (.bvGet index) s = .next (getBit index s).final := perform_running _ _ hs

theorem exec_bvLen_running : exec .bvLen s = .next (s.emit (.result (.length s.bv.len))) := perform_running _ _ hs

theorem exec_bvToBytes_running : exec .bvToBytes s = .next (s.emit (.result (.bytes (bvBytes s.bv)))) :=
  perform_running _ _ hs

end

/-- Running or halted, BV_SET never lowers the known length. -/
theorem bvLen_le_of_exec_bvSet {index : BitVec 32} {v : Bit} {s t : State} (h : exec (.bvSet index v) s = .next t) :
    s.bv.len ≤ t.bv.len := by
  by_cases hs : s.status = 0x00
  · rw [exec_bvSet_running hs] at h
    cases h
    exact bvLen_le_setBit s index v
  · have hrefused : exec (.bvSet index v) s = .next (s.emit (.refused (.legal (.bvSet index v)))) :=
      perform_halted _ _ hs
    cases hrefused.symm.trans h
    exact le_rfl

/-! ## The statements -/

/-- Settles O43. -/
theorem bvNewMakesTheVectorEmpty : Obligations.BvNewMakesTheVectorEmpty :=
  fun _ hs => ⟨BitVectorUnit.reset, exec_bvNew_running hs, rfl, fun _ => rfl⟩

/-- Settles O44: the loaded vector is that of the bytes from begin up to end, each a byte of the data. -/
theorem bvFromBytesLoadsTheRange : Obligations.BvFromBytesLoadsTheRange := by
  intro data b e s hs
  rw [exec_bvFromBytes_running hs]
  refine ⟨fun hbad => ?_, fun hrange => ?_⟩
  · rw [loadBytes_of_not_range s hbad, raiseFault_first_final .bvBadRange hs]
    rfl
  · rw [loadBytes_of_range s hrange]
    obtain ⟨hb, hbe, he⟩ := hrange
    refine ⟨_, rfl, ?_, fun k j hk hj => ?_, fun i hi => ?_⟩
    · rw [bvOfBytes_len, List.length_drop, List.length_take]
      omega
    · have hlt : b.toInt.toNat + k < e.toInt.toNat := by omega
      rw [bvRead_bvOfBytes_eq, byteSequenceBit_mul_add _ _ hj, getD_drop_take hlt]
    · rw [bvRead_bvOfBytes_eq]
      exact byteSequenceBit_of_length_le hi

/-- Settles O45: a read after the write, at the index and at every other. -/
theorem bvSetWritesOneBit : Obligations.BvSetWritesOneBit := by
  intro index v s hs
  rw [exec_bvSet_running hs]
  refine ⟨fun hneg => ?_, fun hnonneg => ?_⟩
  · rw [setBit_of_neg s hneg, raiseFault_first_final .bvNegIndex hs]
    rfl
  · rw [setBit_of_nonneg s hnonneg]
    refine ⟨_, rfl, bvWrite_len _ _ _, ?_, fun i hi => ?_⟩
    · rw [bvRead_bvWrite, if_pos rfl]
    · rw [bvRead_bvWrite, if_neg hi]

/-- Settles O46: from the known length on, R22 makes the bit read 0. -/
theorem bvGetReadsOneBit : Obligations.BvGetReadsOneBit := by
  intro index s hs
  rw [exec_bvGet_running hs]
  refine ⟨fun hneg => ?_, fun hnonneg => ?_, fun hwf hlen => ?_⟩
  · rw [getBit_of_neg s hneg, raiseFault_first_final .bvNegIndex hs]
    rfl
  · rw [getBit_of_nonneg s hnonneg]
    rfl
  · obtain ⟨-, hbeyond, -⟩ := hwf
    rw [getBit_of_nonneg s (by omega), hbeyond _ (by omega)]
    rfl

/-- Settles O47. -/
theorem bvLenReturnsTheKnownLength : Obligations.BvLenReturnsTheKnownLength := fun _ => exec_bvLen_running

/-- Settles O48: bit j of byte k is bit 8k + j of the exported sequence. -/
theorem bvToBytesExportsTheVector : Obligations.BvToBytesExportsTheVector := by
  intro s hs
  refine ⟨bvBytes s.bv, exec_bvToBytes_running hs, bvBytes_length s.bv, fun k j _ hj => ?_⟩
  rw [← byteSequenceBit_mul_add _ _ hj, byteSequenceBit_bvBytes]

/-- Loading the whole of a sequence whose length a 32-bit end operand can name (R71). -/
theorem loadBytes_whole {q : List Byte} (hq : q.length < 2 ^ 31) (s : State) :
    loadBytes q 0 (BitVec.ofNat 32 q.length) s = .done (s.setBv (bvOfBytes q)) := by
  have hend : (BitVec.ofNat 32 q.length).toInt = q.length := by
    rw [BitVec.toInt_ofNat', Int.bmod_def]
    omega
  have hbegin : (0 : BitVec 32).toInt = 0 := rfl
  rw [loadBytes_of_range s (by omega), hend, hbegin, Int.toNat_natCast, List.take_length]
  rfl

/-- Settles O49: the load changes the unit only, so BV_TO_BYTES still runs. -/
theorem bvBytesRoundTrip : Obligations.BvBytesRoundTrip := by
  intro q s hs hq
  have hloaded : (s.setBv (bvOfBytes q)).status = 0x00 := hs
  have hload : execAll [.bvFromBytes q 0 (BitVec.ofNat 32 q.length)] s = .next (s.setBv (bvOfBytes q)) := by
    rw [execAll_singleton, exec_bvFromBytes_running hs, loadBytes_whole hq, Run.final_done]
  refine ⟨(s.setBv (bvOfBytes q)).emit (.result (.bytes q)), ?_, rfl⟩
  calc execAll [.bvFromBytes q 0 (BitVec.ofNat 32 q.length), .bvToBytes] s
      = execAll [.bvToBytes] (s.setBv (bvOfBytes q)) := execAll_append hload [.bvToBytes]
    _ = .next ((s.setBv (bvOfBytes q)).emit (.result (.bytes q))) := by
        rw [execAll_singleton, exec_bvToBytes_running hloaded, State.setBv_bv, bvBytes_bvOfBytes]

/-- Settles O50: BV_SET raises the length or keeps it; every other command in question does not write the unit. -/
theorem knownLengthFallsOnlyOnExplicitReset : Obligations.KnownLengthFallsOnlyOnExplicitReset := by
  intro i s t h
  refine ⟨fun hnew hload hreset => ?_, fun hi => ?_⟩
  · by_cases hset : ∃ index v, i = .bvSet index v
    · obtain ⟨index, v, rfl⟩ := hset
      exact bvLen_le_of_exec_bvSet h
    · have hother : ∀ n v, i ≠ .bvSet n v := fun n v hi => hset ⟨n, v, hi⟩
      obtain ⟨hlen, -⟩ := otherCommandsLeaveTheBitSpaceAlone i s t hreset hnew hload hother h
      exact hlen.ge
  · have hreader : i ≠ .reset ∧ i ≠ .bvNew ∧ (∀ d b e, i ≠ .bvFromBytes d b e) ∧ ∀ n v, i ≠ .bvSet n v := by
      rcases hi with ⟨n, rfl⟩ | rfl | rfl <;> exact ⟨nofun, nofun, nofun, nofun⟩
    obtain ⟨hreset, hnew, hload, hset⟩ := hreader
    exact (otherCommandsLeaveTheBitSpaceAlone i s t hreset hnew hload hset h).1

end Sys2Proof.Machine

/-! PROOFS. The medium (41_medium.md R80 to R89): one transfer of the burst counter and a whole burst of them, the
registration of endpoints, and MED_SEND on each of its paths. -/

namespace Sys2Proof.Machine

/-! ## One transfer of the burst counter (41_medium.md R84, R85) -/

theorem inBurst_neg_one (d : Draw) : inBurst (-1) d = false := rfl

theorem inBurst_zero (d : Draw) : inBurst 0 d = d.startHit := rfl

theorem inBurst_of_pos {c : BitVec 8} (h : 0 < c.toInt) (d : Draw) : inBurst c d = true :=
  (inBurst_iff c d).2 (.inl h)

/-- A transfer outside a burst delivers its bit and leaves the counter idle. -/
theorem transfer_of_not_inBurst {c : BitVec 8} {d : Draw} (h : inBurst c d = false) (m : Nat) (b : Bit) :
    inBurst c d = false ∧ noisyBit c d b = b ∧ burstNext m c d = 0 :=
  ⟨h, noisyBit_of_not_inBurst h b, burstNext_of_not_inBurst h⟩

section
variable {m : Nat} (hm : m ≤ 127) {c : BitVec 8} {d : Draw} (h : inBurst c d = true)
include hm h

/-- Below `MAX_BURST` a burst transfer counts up by one. -/
theorem burstNext_toInt_of_lt (hlt : c.toInt + 1 < m) : (burstNext m c d).toInt = c.toInt + 1 := by
  have hsucc : (c + 1).toInt = c.toInt + 1 := toInt_add_one (by omega)
  rw [burstNext_of_inBurst h, if_neg (by omega), hsucc]

/-- The burst transfer that reaches `MAX_BURST` leaves the cooldown value. -/
theorem burstNext_eq_neg_one (heq : c.toInt + 1 = m) : burstNext m c d = -1 := by
  have hsucc : (c + 1).toInt = c.toInt + 1 := toInt_add_one (by omega)
  rw [burstNext_of_inBurst h, if_pos (by omega)]

/-- After a burst transfer below `MAX_BURST` the next one is in the burst too, whatever its draw. -/
theorem inBurst_burstNext (hlt : c.toInt + 1 < m) (e : Draw) : inBurst (burstNext m c d) e = true := by
  have hnonneg := toInt_nonneg_of_inBurst h
  have hnext := burstNext_toInt_of_lt hm h hlt
  exact inBurst_of_pos (by omega) e

end

/-- Settles O13: rows two and three are `inBurst_zero`; the last three count up or end the burst. -/
theorem burstTransitionTable : Obligations.BurstTransitionTable := by
  intro m d b _ hm
  refine ⟨transfer_of_not_inBurst (inBurst_neg_one d) m b, fun hidle => ?_, fun hstart => ?_, fun c hpos hlt => ?_,
    fun c hpos hlast => ?_⟩
  · exact transfer_of_not_inBurst ((inBurst_zero d).trans hidle) m b
  · have hin : inBurst 0 d = true := (inBurst_zero d).trans hstart
    have hzero : (0 : BitVec 8).toInt = 0 := rfl
    refine ⟨hin, noisyBit_of_inBurst hin b, ?_⟩
    split
    · rw [burstNext_toInt_of_lt hm hin (by omega), hzero, zero_add]
    · rw [burstNext_eq_neg_one hm hin (by omega)]
      rfl
  · have hin : inBurst c d = true := inBurst_of_pos (by omega) d
    exact ⟨hin, noisyBit_of_inBurst hin b, burstNext_toInt_of_lt hm hin (by omega)⟩
  · have hin : inBurst c d = true := inBurst_of_pos (by omega) d
    exact ⟨hin, noisyBit_of_inBurst hin b, burstNext_eq_neg_one hm hin (by omega)⟩

/-! ## A whole burst (41_medium.md R87) -/

section
variable {m : Nat} (hm : m ≤ 127) {c : BitVec 8} {d : Draw} {ds : List Draw} (h : inBurst c d = true)
include hm h

/-- Transfers that do not reach `MAX_BURST`, the first of them in a burst, count up by one each. -/
theorem foldl_burstNext_toInt_of_lt (hlt : c.toInt + ds.length + 1 < m) :
    ((d :: ds).foldl (burstNext m) c).toInt = c.toInt + ds.length + 1 := by
  induction ds generalizing c d with
  | nil => simpa using burstNext_toInt_of_lt hm h (by simpa using hlt)
  | cons e ds ih =>
    rw [List.length_cons] at hlt ⊢
    have hnext := burstNext_toInt_of_lt hm h (by omega)
    have hrest := ih (inBurst_burstNext hm h (by omega) e) (by omega)
    rw [List.foldl_cons, hrest]
    omega

/-- Transfers that reach `MAX_BURST` exactly, the first of them in a burst, leave the cooldown value. -/
theorem foldl_burstNext_eq_neg_one (heq : c.toInt + ds.length + 1 = m) :
    (d :: ds).foldl (burstNext m) c = -1 := by
  induction ds generalizing c d with
  | nil => exact burstNext_eq_neg_one hm h (by simpa using heq)
  | cons e ds ih =>
    rw [List.length_cons] at heq
    have hnext := burstNext_toInt_of_lt hm h (by omega)
    exact ih (inBurst_burstNext hm h (by omega) e) (by omega)

/-- Each of these transfers is in the burst: the first by assumption, a later one because the counter is positive. -/
theorem inBurst_foldl_burstNext (hle : c.toInt + ds.length + 1 ≤ m) {p q : List Draw} {e : Draw}
    (hsplit : d :: ds = p ++ e :: q) : inBurst (p.foldl (burstNext m) c) e = true := by
  cases p with
  | nil =>
    cases hsplit
    exact h
  | cons _ p =>
    obtain ⟨rfl, rfl⟩ : d = _ ∧ ds = p ++ e :: q := List.cons.inj hsplit
    rw [List.length_append, List.length_cons] at hle
    have hnonneg := toInt_nonneg_of_inBurst h
    have hcount := foldl_burstNext_toInt_of_lt hm h (ds := p) (by omega)
    exact inBurst_of_pos (by omega) e

end

/-- Settles O14: the burst that starts at counter 0, and the transfer after it at counter -1. -/
theorem aBurstCoversExactlyMaxBurstTransfers : Obligations.ABurstCoversExactlyMaxBurstTransfers := by
  intro m d ds _ hm hstart hlen
  have hin : inBurst 0 d = true := (inBurst_zero d).trans hstart
  have hzero : (0 : BitVec 8).toInt = 0 := rfl
  exact ⟨foldl_burstNext_eq_neg_one hm hin (by omega),
    fun _ _ _ hsplit => inBurst_foldl_burstNext hm hin (by omega) hsplit,
    fun e b => transfer_of_not_inBurst (inBurst_neg_one e) m b⟩

/-! ## Registering an endpoint (41_medium.md R80) -/

section
variable {s : State} (st : Station)

theorem registerEndpoint_of_slot0_empty (h0 : s.slot0 = none) :
    registerEndpoint st s = .done (s.setSlot0 (some st)) := if_pos h0

theorem registerEndpoint_of_slot1_empty (h0 : s.slot0 ≠ none) (h1 : s.slot1 = none) :
    registerEndpoint st s = .done (s.setSlot1 (some st)) := (if_neg h0).trans (if_pos h1)

theorem registerEndpoint_of_full (h0 : s.slot0 ≠ none) (h1 : s.slot1 ≠ none) :
    registerEndpoint st s = raiseFault .cfgMediumFull s := (if_neg h0).trans (if_neg h1)

theorem exec_medRegister_running (hs : s.status = 0x00) :
    exec (.medRegister st) s = .next (registerEndpoint st s).final := perform_running _ _ hs

end

/-- Settles O9. -/
theorem medRegisterFillsTheFirstFreeSlot : Obligations.MedRegisterFillsTheFirstFreeSlot := by
  intro st s hs
  rw [exec_medRegister_running st hs]
  refine ⟨fun h0 => ?_, fun h0 h1 => ?_, fun h0 h1 => ?_⟩
  · rw [registerEndpoint_of_slot0_empty st h0]
    rfl
  · rw [registerEndpoint_of_slot1_empty st h0 h1]
    rfl
  · rw [registerEndpoint_of_full st h0 h1, raiseFault_first_final .cfgMediumFull hs]
    rfl

/-! ## MED_SEND without a sender or a peer (41_medium.md R81) -/

section
variable {s : State} {st : Station}

theorem peer_of_unregistered (h0 : s.slot0 ≠ some st) (h1 : s.slot1 ≠ some st) :
    peer s st = .error .cfgSenderUnregistered := by
  simp [peer, h0, h1]

theorem peer_of_alone (h : (s.slot0 = some st ∧ s.slot1 = none) ∨ (s.slot0 = none ∧ s.slot1 = some st)) :
    peer s st = .error .cfgNoPeer := by
  rcases h with ⟨h0, h1⟩ | ⟨h0, h1⟩ <;> simp [peer, h0, h1]

theorem sendBit_of_peer_error {c : FaultCode} (h : peer s st = .error c) (b : Bit) :
    sendBit st b s = raiseFault c s := by
  rw [sendBit, h]

theorem exec_medSend_running (b : Bit) (hs : s.status = 0x00) :
    exec (.medSend st b) s = .next (sendBit st b s).final := perform_running _ _ hs

/-- The peer is resolved first, so its fault is all that MED_SEND does. -/
theorem exec_medSend_of_peer_error {c : FaultCode} (h : peer s st = .error c) (b : Bit) (hs : s.status = 0x00) :
    exec (.medSend st b) s = .next { s with status := c.code, trace := s.trace ++ [.fault c] } := by
  rw [exec_medSend_running b hs, sendBit_of_peer_error h, raiseFault_first_final c hs]

end

/-- Settles O10. -/
theorem medSendFaultsWithoutSenderOrPeer : Obligations.MedSendFaultsWithoutSenderOrPeer :=
  fun _ b _ hs => ⟨fun h0 h1 => exec_medSend_of_peer_error (peer_of_unregistered h0 h1) b hs,
    fun h => exec_medSend_of_peer_error (peer_of_alone h) b hs⟩

/-! ## MED_SEND with a peer (41_medium.md R82 to R84, 44_physical.md R116) -/

/-- PHY_RECEIVE of a bit that completes no byte. -/
theorem exec_phyReceive_early {st : Station} {s : State} (b : Bit) (hs : s.status = 0x00)
    (hcount : (s.station st).rxCount.toNat < 7) :
    exec (.phyReceive st b) s =
      .next (s.setDeserializer st (shiftIn (s.station st).rxShift b) ((s.station st).rxCount + 1)) := by
  have hsucc : BitVec.ofNat 3 ((s.station st).rxCount.toNat + 1) = (s.station st).rxCount + 1 := by
    rw [BitVec.ofNat_add, BitVec.ofNat_toNat, BitVec.setWidth_eq]
    rfl
  rw [exec_phyReceive_running st b s hs, receiveBit_early b hcount, Run.final_done, hsucc]

/-- A transfer that hands the bit v to station r in state t is PHY_RECEIVE there. -/
theorem exec_medSend_of_sendBit {st r : Station} {b v : Bit} {s t : State} (hs : s.status = 0x00)
    (ht : t.status = 0x00) (hstation : t.station r = s.station r) (hsend : sendBit st b s = receiveBit r v t) :
    exec (.medSend st b) s = exec (.phyReceive r v) t ∧
    ((s.station r).rxCount.toNat < 7 → exec (.medSend st b) s =
      .next (t.setDeserializer r (shiftIn (s.station r).rxShift v) ((s.station r).rxCount + 1))) := by
  have hreceive : exec (.medSend st b) s = exec (.phyReceive r v) t := by
    rw [exec_medSend_running b hs, hsend, exec_phyReceive_running r v t ht]
  refine ⟨hreceive, fun hcount => ?_⟩
  rw [← hstation] at hcount ⊢
  rw [hreceive, exec_phyReceive_early v ht hcount]

/-- Settles O11. -/
theorem medSendOverThePerfectMedium : Obligations.MedSendOverThePerfectMedium := by
  intro st r b s hs hm hp
  exact exec_medSend_of_sendBit hs hs (by simp) (sendBit_perfect b hm hp)

/-- One bit over a noisy medium: the draw is taken, the counter moves, and the peer receives what R84 delivers. -/
theorem sendBit_noisy {st r : Station} {s : State} (b : Bit) (hm : s.cfg.medium = .noisy) (hp : PeerIs s st r) :
    sendBit st b s = receiveBit r (noisyBit s.burst s.nextDraw b)
      ((s.takeDraw.setBurst (burstNext s.cfg.maxBurst s.burst s.nextDraw)).emit
        (.wire st r b (noisyBit s.burst s.nextDraw b))) := by
  have hbit : s.deliveredBit b = noisyBit s.burst s.nextDraw b := by rw [State.deliveredBit, hm]
  have hafter : s.afterTransfer = s.takeDraw.setBurst (burstNext s.cfg.maxBurst s.burst s.nextDraw) := by
    rw [State.afterTransfer, hm]
  rw [sendBit, (peer_eq_ok_iff s st r).2 hp, hbit, hafter]

/-- Settles O12: the delivered bit and the counter that R84 names are `noisyBit` and `burstNext` of the draw taken. -/
theorem medSendOverTheNoisyMedium : Obligations.MedSendOverTheNoisyMedium := by
  intro st r b v c s hs hm hp hburst hidle
  rw [← inBurst_iff] at hburst hidle
  obtain ⟨rfl, rfl⟩ : v = noisyBit s.burst s.nextDraw b ∧ c = burstNext s.cfg.maxBurst s.burst s.nextDraw := by
    cases hin : inBurst s.burst s.nextDraw with
    | true => rw [noisyBit_of_inBurst hin, burstNext_of_inBurst hin]; exact hburst hin
    | false => rw [noisyBit_of_not_inBurst hin, burstNext_of_not_inBurst hin]; exact hidle (by simp [hin])
  exact exec_medSend_of_sendBit hs (by simpa using hs) (by simp) (sendBit_noisy b hm hp)

/-- Settles O16: the model runs the six transfers of R89. -/
theorem workedBurstTraceOfR89 : Obligations.WorkedBurstTraceOfR89 := by
  unfold Obligations.WorkedBurstTraceOfR89
  decide

end Sys2Proof.Machine

/-! PROOFS. The send side (42_framing_tx.md R90 to R95): the chunks of a buffer, DL_SEND as PHY_SEND of its frames, the
unstuffing walk, and which station a command of the link may change. -/

namespace Sys2Proof.Machine

/-! ## Pieces of a buffer (R90) -/

section
variable {m : Nat} (hm : 1 ≤ m)
include hm

/-- `ceil(n / m)` is the number of the k with `m k < n`. -/
theorem lt_ceil_div_iff (k n : Nat) : k < (n + m - 1) / m ↔ m * k < n := by
  rw [← Nat.succ_le_iff, Nat.le_div_iff_mul_le hm, Nat.succ_mul, Nat.mul_comm k m]
  omega

/-- What a piece leaves of the data needs one unit of fuel less. -/
theorem length_drop_le_of_length_le_succ {fuel : Nat} {data : List Byte} (h : data.length ≤ fuel + 1) :
    (data.drop m).length ≤ fuel := by
  rw [List.length_drop]
  omega

variable {fuel : Nat} {data : List Byte} (h : data.length ≤ fuel)
include h

/-- There is a piece k exactly where the pieces before it leave a byte. -/
theorem lt_piecesOf_length_iff (k : Nat) : k < (piecesOf m fuel data).length ↔ m * k < data.length := by
  induction fuel generalizing data k with
  | zero => simp_all [piecesOf]
  | succ fuel ih =>
    cases data with
    | nil => simp [piecesOf]
    | cons b rest =>
      rw [piecesOf, List.length_cons]
      cases k with
      | zero => simp
      | succ k =>
        rw [Nat.add_lt_add_iff_right, ih (length_drop_le_of_length_le_succ hm h), List.length_drop, Nat.mul_succ]
        omega

theorem piecesOf_length : (piecesOf m fuel data).length = (data.length + m - 1) / m :=
  eq_of_forall_lt_iff fun k => by rw [lt_piecesOf_length_iff hm h, lt_ceil_div_iff hm]

/-- Piece k is the m bytes, or the fewer that are left, after the k pieces before it. -/
theorem piecesOf_getD (k : Nat) : (piecesOf m fuel data).getD k [] = (data.drop (m * k)).take m := by
  induction fuel generalizing data k with
  | zero => simp_all [piecesOf]
  | succ fuel ih =>
    cases data with
    | nil => simp [piecesOf]
    | cons b rest =>
      rw [piecesOf]
      cases k with
      | zero => simp
      | succ k =>
        rw [List.getD_cons_succ, ih (length_drop_le_of_length_le_succ hm h), List.drop_drop, Nat.mul_succ, Nat.add_comm]

theorem piecesOf_getD_length (k : Nat) :
    ((piecesOf m fuel data).getD k []).length = min m (data.length - m * k) := by
  rw [piecesOf_getD hm h, List.length_take, List.length_drop]

end

/-! ## The chunks of a buffer (R90, R92) -/

section
variable {cfg : Config} {data : List Byte}

theorem chunks_nil (cfg : Config) : chunks cfg [] = if cfg.emptySendEmitsFrame then [[]] else [] := rfl

theorem chunks_simple (hd : data ≠ []) (hf : cfg.framing = .simple) : chunks cfg data = [data] := by
  obtain ⟨b, rest, rfl⟩ := List.exists_cons_of_ne_nil hd
  simp [chunks, hf]

theorem chunks_parity {m : ℕ+} (hd : data ≠ []) (hf : cfg.framing = .parity) (hm : cfg.maxPayload = some m) :
    chunks cfg data = piecesOf m data.length data := by
  obtain ⟨b, rest, rfl⟩ := List.exists_cons_of_ne_nil hd
  simp [chunks, hf, hm]

end

theorem getLastD_eq_getD {α : Type} (l : List α) (d : α) : l.getLastD d = l.getD (l.length - 1) d := by
  rw [List.getLastD_eq_getLast?, List.getLast?_eq_getElem?, List.getD_eq_getElem?_getD]

/-- Settles O25: piece k exists exactly where `m k < n`, and is `min m (n - m k)` bytes long. -/
theorem chunksPartitionTheBuffer : Obligations.ChunksPartitionTheBuffer := by
  intro cfg data hd
  refine ⟨fun hf => chunks_simple hd hf, fun m hf hmax => ?_⟩
  have hm : 1 ≤ (m : Nat) := m.pos
  have hlt := lt_piecesOf_length_iff hm (le_refl data.length)
  have hpiece := piecesOf_getD_length hm (le_refl data.length)
  have hflat := chunks_flatten cfg data
  rw [getLastD_eq_getD]
  rw [chunks_parity hd hf hmax] at hflat ⊢
  generalize hL : (piecesOf m data.length data).length = L at hlt ⊢
  have hcount : L = (data.length + m - 1) / m := hL.symm.trans (piecesOf_length hm le_rfl)
  have hpos : 0 < L := (hlt 0).2 (by simpa using List.length_pos_iff.2 hd)
  -- The last chunk is neither empty nor longer than m: there is a chunk L - 1 and no chunk L.
  have hlast : m * (L - 1) < data.length := (hlt _).1 (by omega)
  have hend : data.length ≤ m * (L - 1) + m := by
    rw [← Nat.mul_succ, Nat.succ_eq_add_one, Nat.sub_add_cancel hpos]
    exact Nat.le_of_not_lt fun hc => lt_irrefl L ((hlt L).2 hc)
  refine ⟨hflat, hcount, fun k hk => ?_, ?_, ?_, ?_⟩
  · have hnext := (hlt _).1 hk
    rw [Nat.mul_succ] at hnext
    rw [hpiece]
    omega
  all_goals rw [hpiece]; omega

/-! ## The empty buffer and the empty frame (R92) -/

theorem frame_nil_simple {cfg : Config} (h : cfg.framing = .simple) : frame cfg [] = [cfg.start, cfg.stop] := by
  simp [frame, h]

theorem frame_nil_parity {cfg : Config} (h : cfg.framing = .parity) :
    frame cfg [] = [cfg.start, 0x00, cfg.stop] := by
  simp [frame, h, checkByte]

/-! ## DL_SEND (R94) -/

section
variable {st : Station} {data : List Byte} {s : State} (hs : s.status = 0x00)

theorem sendData_unbound (hb : (s.station st).bound = false) : sendData st data s = raiseFault .cfgNoPhy s := by
  simp [sendData, hb]

include hs

theorem exec_dlSend_running : exec (.dlSend st data) s = .next (sendData st data s).final := perform_running _ _ hs

theorem exec_phySend_running : exec (.phySend st data) s = .next (sendBytes st data s).final := perform_running _ _ hs

theorem exec_dlSend_bound (hb : (s.station st).bound = true) :
    exec (.dlSend st data) s = exec (.phySend st ((chunks s.cfg data).flatMap (frame s.cfg))) s := by
  rw [exec_dlSend_running hs, sendData_bound data hb, exec_phySend_running hs]

end

/-- Settles O28. -/
theorem dlSendIsPhySendOfTheFrames : Obligations.DlSendIsPhySendOfTheFrames := by
  intro st data s hs
  refine ⟨fun hb => ?_, exec_dlSend_bound hs⟩
  rw [exec_dlSend_running hs, sendData_unbound hb, raiseFault_first_final .cfgNoPhy hs]
  rfl

/-- Settles O26: with no chunk there is no frame, and PHY_SEND of no byte changes nothing. -/
theorem anEmptyBufferSendsNothingUnlessConfigured : Obligations.AnEmptyBufferSendsNothingUnlessConfigured := by
  refine ⟨fun cfg => ⟨fun h => ?_, fun h => ?_, frame_nil_simple, frame_nil_parity⟩, fun st s hs hb h => ?_⟩
  · rw [chunks_nil, h]
    rfl
  · rw [chunks_nil, h]
    rfl
  · have hnone : chunks s.cfg [] = [] := by rw [chunks_nil, h]; rfl
    rw [exec_dlSend_bound hs hb, hnone, exec_phySend_running hs]
    rfl

/-! ## The unstuffing walk (43_framing_rx.md R104) -/

/-- An ESC with no byte after it is discarded. -/
theorem unstuff_esc_singleton (e : Byte) : unstuff e [e] = [] := if_pos rfl

/-- Settles O27: a stuffed chunk alone is a stuffed chunk with nothing after it. -/
theorem unstuffingUndoesStuffing : Obligations.UnstuffingUndoesStuffing := by
  intro cfg
  refine ⟨fun _ _ => rfl, rfl, unstuff_esc_singleton cfg.esc, unstuff_esc_cons cfg.esc,
    fun _ rest hb => unstuff_plain_cons hb rest, unstuff_stuff_append cfg, fun c => ?_⟩
  have hwhole := unstuff_stuff_append cfg c []
  rwa [List.append_nil, unstuff, List.append_nil] at hwhole

/-! ## What a send leaves unchanged (R94, 60_exceptions.md R142) -/

/-- A command's outcome is its rule's, or the halted gate's (45_network_system.md R127). -/
theorem perform_next_cases {c : Command} {rule : State → Run} {s t : State} (h : perform c rule s = .next t) :
    t = (rule s).final ∨ t = s.emit (.refused c) := by
  by_cases hs : s.status = 0x00
  · rw [perform_running c rule hs] at h
    cases h
    exact .inl rfl
  · rw [perform_halted c rule hs] at h
    cases h
    exact .inr rfl

/-- t has the slots of s, and every station of s but the peer of st. -/
structure OnlyPeerChanged (st : Station) (s t : State) : Prop where
  slot0 : t.slot0 = s.slot0
  slot1 : t.slot1 = s.slot1
  station : ∀ a, ¬ PeerIs s st a → t.station a = s.station a

section
variable {st : Station} {s t u : State}

theorem OnlyPeerChanged.refl (st : Station) (s : State) : OnlyPeerChanged st s s := ⟨rfl, rfl, fun _ _ => rfl⟩

/-- The slots say who the peer is, so it is still the peer. -/
theorem OnlyPeerChanged.peerIs {r : Station} (h : OnlyPeerChanged st s t) (hr : peer t st = .ok r) : PeerIs s st r := by
  have hp := (peer_eq_ok_iff t st r).1 hr
  rwa [PeerIs, h.slot0, h.slot1] at hp

theorem OnlyPeerChanged.of_unchanged (h : OnlyPeerChanged st s t) (h0 : u.slot0 = t.slot0) (h1 : u.slot1 = t.slot1)
    (hu : ∀ a, ¬ PeerIs s st a → u.station a = t.station a) : OnlyPeerChanged st s u :=
  ⟨h0.trans h.slot0, h1.trans h.slot1, fun a ha => (hu a ha).trans (h.station a ha)⟩

/-- The link rules write no slot, and only the stations that receive. -/
theorem onlyPeerChanged_linkClosed (st : Station) (s : State) : LinkClosed (PeerIs s st) (OnlyPeerChanged st s) := by
  have hne {a r : Station} (ha : ¬ PeerIs s st a) (hr : PeerIs s st r) : a ≠ r := fun he => ha (he ▸ hr)
  exact
    { emit := fun t e h => h.of_unchanged rfl rfl fun a _ => t.emit_station a e
      fault := fun t c h _ => h.of_unchanged rfl rfl fun a _ => t.setStatus_station a c.code
      deserializer := fun t r shift n hr h =>
        h.of_unchanged (by simp) (by simp) fun a ha => t.setDeserializer_ne r a shift n (hne ha hr)
      append := fun t r x hr _ h => h.of_unchanged (by simp) (by simp) fun a ha => t.appendRx_ne r a x (hne ha hr)
      clear := fun t r hr h => h.of_unchanged (by simp) (by simp) fun a ha => t.clearRx_ne r a (hne ha hr)
      release := fun t r hr h => h.of_unchanged (by simp) (by simp) fun a ha => t.releaseRx_ne r a (hne ha hr)
      transfer := fun t h => h.of_unchanged (by simp) (by simp) fun a _ => t.afterTransfer_station a }

theorem onlyPeerChanged_of_perform {c : Command} {rule : State → Run} (h : perform c rule s = .next t)
    (hrule : OnlyPeerChanged st s (rule s).final) : OnlyPeerChanged st s t := by
  obtain rfl | rfl := perform_next_cases h
  · exact hrule
  · exact (onlyPeerChanged_linkClosed st s).emit s _ (.refl st s)

/-- MED_SEND, PHY_SEND, DL_SEND and NET_SEND, running or halted. -/
theorem onlyPeerChanged_of_send {i : Instr}
    (hi : (∃ b, i = .medSend st b) ∨ (∃ q, i = .phySend st q) ∨ (∃ q, i = .dlSend st q) ∨ i = .netSend st)
    (h : exec i s = .next t) : OnlyPeerChanged st s t := by
  have hl := onlyPeerChanged_linkClosed st s
  have hp : ∀ u r, OnlyPeerChanged st s u → peer u st = .ok r → PeerIs s st r := fun _ _ hu => hu.peerIs
  have h0 := OnlyPeerChanged.refl st s
  obtain ⟨b, rfl⟩ | ⟨q, rfl⟩ | ⟨q, rfl⟩ | rfl := hi
  · exact onlyPeerChanged_of_perform h (hl.sendBit hp b h0)
  · exact onlyPeerChanged_of_perform h (hl.sendBytes hp q h0)
  · exact onlyPeerChanged_of_perform h (hl.sendData hp q h0)
  · exact onlyPeerChanged_of_perform h (hl.sendTestMessages hp h0)

end

/-! ## What a receive leaves unchanged (R142, 44_physical.md R116, 43_framing_rx.md R100) -/

/-- t has the burst counter and the draws of s, and every station of s but st. -/
structure OnlyStationChanged (st : Station) (s t : State) : Prop where
  station : ∀ a, a ≠ st → t.station a = s.station a
  burst : t.burst = s.burst
  draws : t.draws = s.draws

/-- Processing a complete frame emits one event, or faults at the start byte (43_framing_rx.md R103, R105, R106). -/
theorem processFrame_cases (st : Station) (q : List Byte) (s : State) :
    (∃ e, processFrame st q s = .done (s.emit e)) ∨
      processFrame st q s =
        raiseFault .framingBadStart ((s.emit (.diag (.framingError st (q.headD 0x00)))).releaseRx st) := by
  unfold processFrame startCheck
  split
  · refine .inl ?_
    rw [Run.done_andThen]
    dsimp only
    split
    · exact ⟨_, rfl⟩
    · unfold acceptParity
      dsimp only
      split
      · exact ⟨_, rfl⟩
      · exact ⟨_, rfl⟩
  · exact .inr rfl

namespace OnlyStationChanged

variable {st : Station} {s t : State}

theorem refl (st : Station) (s : State) : OnlyStationChanged st s s := ⟨fun _ _ => rfl, rfl, rfl⟩

theorem emit (h : OnlyStationChanged st s t) (e : Event) : OnlyStationChanged st s (t.emit e) :=
  ⟨by simpa using h.station, h.burst, h.draws⟩

theorem setStation (h : OnlyStationChanged st s t) (v : StationState) : OnlyStationChanged st s (t.setStation st v) :=
  ⟨fun a ha => (t.setStation_ne st a v ha).trans (h.station a ha), by simpa using h.burst, by simpa using h.draws⟩

theorem releaseRx (h : OnlyStationChanged st s t) : OnlyStationChanged st s (t.releaseRx st) :=
  ⟨fun a ha => (t.releaseRx_ne st a ha).trans (h.station a ha), by simpa using h.burst, by simpa using h.draws⟩

theorem raise (h : OnlyStationChanged st s t) (c : FaultCode) : OnlyStationChanged st s (raiseFault c t).final := by
  refine OnlyStationChanged.emit ?_ _
  split
  · exact ⟨by simpa using h.station, h.burst, h.draws⟩
  · exact h

theorem receiveByte (h : OnlyStationChanged st s t) (x : Byte) :
    OnlyStationChanged st s (receiveByte st x t).final := by
  have happend : OnlyStationChanged st s (t.appendRx st x) := h.setStation _
  by_cases hfull : (t.station st).rxBuf.length = t.cfg.rxBufMax
  · rw [receiveByte_overflow x hfull]
    exact h.raise _
  · cases hc : complete t.cfg ((t.station st).rxBuf ++ [x]) with
    | false =>
      rw [receiveByte_accumulates hfull hc]
      exact happend
    | true =>
      rw [receiveByte_completes hfull hc]
      refine Run.andThen_keeps ?_ fun u (hu : OnlyStationChanged st s u) => hu.setStation _
      obtain ⟨e, he⟩ | hfault := processFrame_cases st ((t.station st).rxBuf ++ [x]) (t.appendRx st x)
      · rw [he]
        exact happend.emit e
      · rw [hfault]
        exact ((happend.emit _).releaseRx).raise _

theorem receiveBit (h : OnlyStationChanged st s t) (b : Bit) : OnlyStationChanged st s (receiveBit st b t).final := by
  by_cases h7 : (t.station st).rxCount = 7
  · have hclear : OnlyStationChanged st s (t.setDeserializer st 0x00 0) := h.setStation _
    rw [receiveBit_eighth b h7]
    split
    · exact hclear.receiveByte _
    · exact hclear.raise _
  · rw [receiveBit_early b (by bv_omega)]
    exact h.setStation _

theorem of_perform {c : Command} {rule : State → Run} (h : perform c rule s = .next t)
    (hrule : OnlyStationChanged st s (rule s).final) : OnlyStationChanged st s t := by
  obtain rfl | rfl := perform_next_cases h
  · exact hrule
  · exact (refl st s).emit _

end OnlyStationChanged

/-- A field of the stations that byte receive does not write, DL_RECEIVE does not write. -/
theorem exec_dlReceive_station_field {α : Type} {f : StationState → α} (hf : ∀ v q, f { v with rxBuf := q } = f v)
    {st : Station} {x : Byte} {s t : State} (h : exec (.dlReceive st x) s = .next t) (a : Station) :
    f (t.station a) = f (s.station a) := by
  obtain rfl | rfl := perform_next_cases h
  · exact receiveByte_station_field hf st a x s
  · rw [State.emit_station]

/-- Settles O42. -/
theorem linkCommandsChangeOnlyTheReceivingStation : Obligations.LinkCommandsChangeOnlyTheReceivingStation := by
  intro i st s t
  refine ⟨fun hi h => (onlyPeerChanged_of_send hi h).station, fun hi h => ?_, fun x hi h => ?_⟩
  · have hkept : OnlyStationChanged st s t := by
      obtain ⟨b, rfl⟩ | ⟨x, rfl⟩ := hi
      · exact .of_perform h ((OnlyStationChanged.refl st s).receiveBit b)
      · exact .of_perform h ((OnlyStationChanged.refl st s).receiveByte x)
    exact ⟨hkept.station, hkept.burst, hkept.draws⟩
  · subst hi
    exact ⟨exec_dlReceive_station_field (f := StationState.rxShift) (fun _ _ => rfl) h st,
      exec_dlReceive_station_field (f := StationState.rxCount) (fun _ _ => rfl) h st⟩

end Sys2Proof.Machine

/-! PROOFS. The receive side (43_framing_rx.md R100 to R108, R111): what processing a complete buffer does, and what
DL_RECEIVE does with one byte. -/

namespace Sys2Proof.Machine

/-! ## The markers of an admitted configuration (00_scope.md R6) -/

section
variable {cfg : Config} (h : admitted cfg = true)
include h

/-- Condition (a) of R6, from the test as a whole. -/
theorem markersDistinct_of_admitted : cfg.start ≠ cfg.stop ∧ cfg.start ≠ cfg.esc ∧ cfg.stop ≠ cfg.esc := by
  obtain ⟨hdistinct, -⟩ := (admittedConfigurationsAreThoseOfR6 cfg).1 h
  exact hdistinct

/-- Condition (b) of R6 with R48: in PARITY no check byte is a marker. -/
theorem checkByte_ne_of_admitted (hf : cfg.framing = .parity) {m : Byte} (hm : m ∈ [cfg.start, cfg.stop, cfg.esc])
    (c : List Byte) : checkByte c ≠ m := by
  obtain ⟨-, hb, -⟩ := (admittedConfigurationsAreThoseOfR6 cfg).1 h
  obtain ⟨h0, h1⟩ := hb hf m hm
  obtain hc | hc := checkByte_eq_zero_or_one c
  · rw [hc]; exact h0.symm
  · rw [hc]; exact h1.symm

end

/-! ## Processing a complete buffer (R102, R103, R106) -/

section
variable {st : Station} {s : State}

/-- A buffer that does not begin with START (R103). -/
theorem processFrame_bad_start {q : List Byte} (h : q.head? ≠ some s.cfg.start) :
    processFrame st q s =
      raiseFault .framingBadStart ((s.emit (.diag (.framingError st (q.headD 0x00)))).releaseRx st) := by
  rw [processFrame, startCheck, if_neg h]
  rfl

/-- The two-byte buffer: START stands where the check byte would, and the payload is empty (R106). -/
theorem processFrame_parity_two_bytes (hv : s.cfg.framing = .parity) (h0 : s.cfg.start ≠ 0x00) (x : Byte) :
    processFrame st [s.cfg.start, x] s = .done (s.emit (.diag (.parityMismatch st [] s.cfg.start 0x00))) := by
  have hb : boundary s.cfg [s.cfg.start, x] = 0 := by simp [boundary, hv]
  rw [processFrame, startCheck, if_pos List.head?_cons, Run.done_andThen]
  dsimp only
  rw [hv, hb]
  exact if_neg h0

end

/-! ## DL_RECEIVE of one byte (R100, R107, R108) -/

theorem State.setRxBuf_setRxBuf (s : State) (st : Station) (p q : List Byte) :
    (s.setRxBuf st p).setRxBuf st q = s.setRxBuf st q := by
  cases st <;> rfl

theorem State.emit_setRxBuf (s : State) (st : Station) (q : List Byte) (e : Event) :
    (s.setRxBuf st q).emit e = { s.setRxBuf st q with trace := s.trace ++ [e] } := by
  cases st <;> rfl

/-- The free value replaces the whole buffer, the byte just appended included (R107, log 5). -/
theorem State.releaseRx_emit_appendRx (s : State) (st : Station) (x : Byte) (e : Event) :
    ((s.appendRx st x).emit e).releaseRx st =
      (s.setRxBuf st ((Config.freeRxBuf s.freeCount).take s.cfg.rxBufMax)).useFree.emit e := by
  cases st <;> rfl

section
variable {st : Station} {x : Byte} {s : State} (hroom : (s.station st).rxBuf.length ≠ s.cfg.rxBufMax)
include hroom

/-- A byte that completes a frame whose processing emits e and does not fault. -/
theorem receiveByte_emits {e : Event} (hc : complete s.cfg ((s.station st).rxBuf ++ [x]) = true)
    (hp : ∀ t : State, t.cfg = s.cfg → processFrame st ((s.station st).rxBuf ++ [x]) t = .done (t.emit e)) :
    receiveByte st x s = .done ((s.setRxBuf st []).emit e) := by
  rw [receiveByte_completes hroom hc, hp _ (State.appendRx_cfg s st x)]
  cases st <;> rfl

/-- A byte that completes a buffer which does not begin with START. -/
theorem receiveByte_bad_start (hc : complete s.cfg ((s.station st).rxBuf ++ [x]) = true)
    (hb : ((s.station st).rxBuf ++ [x]).head? ≠ some s.cfg.start) :
    receiveByte st x s = raiseFault .framingBadStart
      ((s.setRxBuf st ((Config.freeRxBuf s.freeCount).take s.cfg.rxBufMax)).useFree.emit
        (.diag (.framingError st (((s.station st).rxBuf ++ [x]).headD 0x00)))) := by
  rw [receiveByte_completes hroom hc, processFrame_bad_start (by simpa using hb), State.releaseRx_emit_appendRx]
  rfl

variable (hs : s.status = 0x00)
include hs

theorem exec_dlReceive_accumulates (hc : complete s.cfg ((s.station st).rxBuf ++ [x]) = false) :
    exec (.dlReceive st x) s = .next (s.setRxBuf st ((s.station st).rxBuf ++ [x])) := by
  rw [exec_dlReceive_running st x s hs, receiveByte_accumulates hroom hc]
  rfl

theorem exec_dlReceive_emits {e : Event} (hc : complete s.cfg ((s.station st).rxBuf ++ [x]) = true)
    (hp : ∀ t : State, t.cfg = s.cfg → processFrame st ((s.station st).rxBuf ++ [x]) t = .done (t.emit e)) :
    exec (.dlReceive st x) s = .next { s.setRxBuf st [] with trace := s.trace ++ [e] } := by
  rw [exec_dlReceive_running st x s hs, receiveByte_emits hroom hc hp, Run.final_done, State.emit_setRxBuf]

end

/-- A STOP ends the frame of every buffer that is not empty and whose last byte is not ESC (R101). -/
theorem complete_append_stop {cfg : Config} {q : List Byte} (hne : q ≠ []) (hlast : q.getLast? ≠ some cfg.esc) :
    complete cfg (q ++ [cfg.stop]) = true := (complete_append_singleton cfg q _).2 ⟨hne, rfl, hlast⟩

/-- Settles O29: each of the three premises is a way to fail the completion test. -/
theorem dlReceiveKeepsBytesUntilAFrameCompletes : Obligations.DlReceiveKeepsBytesUntilAFrameCompletes := by
  intro st x s hs hroom hx
  refine exec_dlReceive_accumulates hroom hs (Bool.eq_false_iff.2 fun hc => ?_)
  obtain ⟨hne, hstop, hlast⟩ := (complete_append_singleton _ _ _).1 hc
  obtain h | h | h := hx
  · exact h hstop
  · exact hne h
  · exact hlast h

/-- Below the bound a byte is kept, completes a frame that empties the buffer, or faults at the start byte: the status
is never that of an overflow, and the buffer stays within the bound (R18). -/
theorem receiveByte_below_bound {st : Station} {s : State} (x : Byte) (hs : s.status = 0x00)
    (hlt : (s.station st).rxBuf.length < s.cfg.rxBufMax) :
    (receiveByte st x s).final.status ≠ 0x30 ∧
      ((receiveByte st x s).final.station st).rxBuf.length ≤ s.cfg.rxBufMax := by
  cases hc : complete s.cfg ((s.station st).rxBuf ++ [x]) with
  | false =>
    rw [receiveByte_accumulates hlt.ne hc]
    simpa [hs] using hlt
  | true =>
    rw [receiveByte_completes hlt.ne hc]
    obtain ⟨e, he⟩ | hfault := processFrame_cases st ((s.station st).rxBuf ++ [x]) (s.appendRx st x)
    · rw [he]
      simp [hs]
    · rw [hfault, raiseFault_first _ _ (by simpa using hs)]
      simp [FaultCode.code]

/-- Settles O30. -/
theorem dlReceiveOverflowsOnlyAtAFullBuffer : Obligations.DlReceiveOverflowsOnlyAtAFullBuffer := by
  intro st x s hs
  rw [exec_dlReceive_running st x s hs]
  refine ⟨fun hfull => ?_, fun t hlt ht => ?_⟩
  · rw [receiveByte_overflow x hfull, raiseFault_first_final _ hs]
    rfl
  · cases ht
    exact receiveByte_below_bound x hs hlt

/-- Settles O31: the buffer that is left is the free value, cut to the bound. -/
theorem aBadStartByteIsAFault : Obligations.ABadStartByteIsAFault := by
  intro st b0 rest s hs hbuf hroom hlast hb0
  have hc := complete_append_stop (List.cons_ne_nil b0 rest) hlast
  rw [exec_dlReceive_running st _ s hs,
    receiveByte_bad_start (by rwa [hbuf]) (by rwa [hbuf]) (by simpa [hbuf] using hb0),
    raiseFault_first_final _ (by simpa using hs), hbuf]
  refine ⟨_, (Config.freeRxBuf s.freeCount).take s.cfg.rxBufMax, rfl, List.length_take_le _ _, ?_⟩
  rw [State.emit_trace, State.useFree_trace, State.setRxBuf_trace, List.append_assoc]
  cases st <;> rfl

/-- Settles O32. -/
theorem simpleFramesAreDelivered : Obligations.SimpleFramesAreDelivered := by
  intro st body s hs hv hbuf hroom hlast
  have hc := complete_append_stop (List.cons_ne_nil s.cfg.start body) hlast
  refine exec_dlReceive_emits (by rwa [hbuf]) hs (by rwa [hbuf]) fun t ht => ?_
  rw [hbuf, ← ht]
  exact processFrame_simple (ht ▸ hv) body _

/-- Settles O33. -/
theorem parityFramesAreDeliveredOrDropped : Obligations.ParityFramesAreDeliveredOrDropped := by
  intro st s hs hv hadm
  refine ⟨fun body rc hbuf hrc hroom => ?_, fun hbuf => ?_⟩
  · have hc : complete s.cfg (s.cfg.start :: body ++ [rc] ++ [s.cfg.stop]) = true :=
      complete_append_stop (by simp) (by rw [List.getLast?_concat]; simpa using hrc)
    refine exec_dlReceive_emits (by simpa [hbuf] using hroom) hs (by rwa [hbuf]) fun t ht => ?_
    rw [hbuf, ← ht]
    exact processFrame_parity (ht ▸ hv) body rc _
  · obtain ⟨-, hesc, -⟩ := markersDistinct_of_admitted hadm
    obtain ⟨-, -, -, -, hbound⟩ := (admittedConfigurationsAreThoseOfR6 s.cfg).1 hadm
    have hc : complete s.cfg ([s.cfg.start] ++ [s.cfg.stop]) = true :=
      complete_append_stop (by simp) (by simpa using hesc)
    have h0 : s.cfg.start ≠ 0x00 := (checkByte_ne_of_admitted hadm hv (by simp) []).symm
    refine exec_dlReceive_emits (by rw [hbuf, List.length_singleton]; omega) hs (by rwa [hbuf]) fun t ht => ?_
    rw [hbuf, ← ht]
    exact processFrame_parity_two_bytes (ht ▸ hv) (ht ▸ h0) _

/-- Settles O34: the model runs the thirteen cases of R111. -/
theorem workedReceiveCasesOfR111 : Obligations.WorkedReceiveCasesOfR111 := by
  unfold Obligations.WorkedReceiveCasesOfR111
  and_intros
  all_goals decide

end Sys2Proof.Machine

/-! PROOFS. Frames at the receiver (43_framing_rx.md R109, R110): where the frames of the send side complete, the round
trip over the perfect medium, and a payload with one bit flipped. -/

namespace Sys2Proof.Machine

/-! ## A frame up to its STOP (30_encoding.md R46, R48; 42_framing_tx.md R93) -/

/-- What stands between the stuffed chunk and STOP: the check byte in PARITY, nothing in SIMPLE. -/
def checkField (cfg : Config) (c : List Byte) : List Byte :=
  match cfg.framing with
  | .simple => []
  | .parity => [checkByte c]

theorem checkField_simple {cfg : Config} (h : cfg.framing = .simple) (c : List Byte) : checkField cfg c = [] := by
  rw [checkField, h]

theorem checkField_parity {cfg : Config} (h : cfg.framing = .parity) (c : List Byte) :
    checkField cfg c = [checkByte c] := by
  rw [checkField, h]

theorem frame_eq_append_stop (cfg : Config) (c : List Byte) :
    frame cfg c = (cfg.start :: stuff cfg c ++ checkField cfg c) ++ [cfg.stop] := by
  cases h : cfg.framing with
  | simple => simp [frame, checkField, h]
  | parity => simp [frame, checkField, h]

theorem frame_parity {cfg : Config} (h : cfg.framing = .parity) (c : List Byte) :
    frame cfg c = cfg.start :: (stuff cfg c ++ [checkByte c, cfg.stop]) := by
  simp [frame, h]

/-- Stuffing puts nothing after a byte (R47). -/
theorem getLast?_stuff (cfg : Config) (c : List Byte) : (stuff cfg c).getLast? = c.getLast? := by
  cases c using List.reverseRecOn with
  | nil => rfl
  | append_singleton c b =>
    rw [stuff, List.flatMap_append, List.flatMap_singleton, List.getLast?_concat, stuffByte]
    split <;> simp

section
variable {cfg : Config} (hadm : admitted cfg = true) (c : List Byte)
include hadm

/-- No frame ends before its STOP, the last byte (R93, R101). -/
theorem noEarlyEnd_frame : NoEarlyEnd cfg [] (cfg.start :: stuff cfg c ++ checkField cfg c) := by
  obtain ⟨hss, -, hse⟩ := markersDistinct_of_admitted hadm
  refine (NoEarlyEnd.append cfg (q := cfg.start :: stuff cfg c)).2
    ⟨(NoEarlyEnd.append cfg (q := [cfg.start])).2 ⟨?_, noEarlyEnd_stuff cfg hse _ c⟩, ?_⟩
  · exact noEarlyEnd_of_no_stop cfg (by simpa using hss.symm)
  · refine noEarlyEnd_of_no_stop cfg ?_
    cases hf : cfg.framing with
    | simple => simp [checkField_simple hf]
    | parity => simpa [checkField_parity hf] using (checkByte_ne_of_admitted hadm hf (by simp) c).symm

/-- The STOP of a frame ends it, but for a SIMPLE payload that ends in ESC (R101, R154). -/
theorem complete_frame (hesc : cfg.framing = .simple → c.getLast? ≠ some cfg.esc) :
    complete cfg (frame cfg c) = true := by
  obtain ⟨-, hstart, -⟩ := markersDistinct_of_admitted hadm
  rw [frame_eq_append_stop]
  refine complete_append_stop (by simp) ?_
  cases hf : cfg.framing with
  | parity =>
    rw [checkField_parity hf, List.getLast?_concat]
    simpa using checkByte_ne_of_admitted hadm hf (by simp) c
  | simple =>
    have hlast := hesc hf
    rw [checkField_simple hf, List.append_nil, List.getLast?_cons, getLast?_stuff]
    cases hc : c.getLast? with
    | none => simpa using hstart
    | some b => simpa [hc] using hlast

end

/-- The walk over a stuffed chunk gives back the chunk (R95). -/
theorem unstuff_stuff (cfg : Config) (c : List Byte) : unstuff cfg.esc (stuff cfg c) = c := by
  obtain ⟨-, -, -, -, -, -, h⟩ := unstuffingUndoesStuffing cfg
  exact h c

/-- A frame's payload is the chunk it was built from, in both variants (R105, R106). -/
theorem processFrame_frame (st : Station) (c : List Byte) (s : State) :
    processFrame st (frame s.cfg c) s = .done (s.emit (.deliver st c)) := by
  rw [frame_eq_append_stop]
  cases hf : s.cfg.framing with
  | simple => rw [checkField_simple hf, List.append_nil, processFrame_simple hf, unstuff_stuff]
  | parity => rw [checkField_parity hf, processFrame_parity hf, unstuff_stuff, if_pos rfl]

/-! ## The round trip over the perfect medium (R109) -/

/-- The events of one chunk's way over the perfect medium: the wires of its frame, then its delivery. -/
def chunkEvents (cfg : Config) (st r : Station) (c : List Byte) : List Event :=
  cleanWires st r ((frame cfg c).flatMap bitsMsbFirst) ++ [.deliver r c]

/-- The state after frames that the receiver delivered: their events, and the deserializer at a byte boundary. -/
def State.afterFrames (s : State) (r : Station) (shift : Byte) (es : List Event) : State :=
  State.setDeserializer { s with trace := s.trace ++ es } r shift 0

/-- A receiver that a frame over the perfect medium finds clean: wired, with a client, at a byte boundary, its buffer
empty. -/
structure ReceiverReady (st r : Station) (s : State) : Prop where
  medium : s.cfg.medium = .perfect
  peer : PeerIs s st r
  bound : (s.station r).bound = true
  rxBuf : (s.station r).rxBuf = []
  rxCount : (s.station r).rxCount = 0

/-- What the round trip asks of a chunk: room for its frame, and in SIMPLE no ESC at the end (R109). -/
structure ChunkFits (cfg : Config) (c : List Byte) : Prop where
  room : (frame cfg c).length ≤ cfg.rxBufMax
  noEscAtEnd : cfg.framing = .simple → c.getLast? ≠ some cfg.esc

section
variable {st r : Station} {s : State}

@[simp] theorem State.afterFrames_cfg (shift : Byte) (es : List Event) : (s.afterFrames r shift es).cfg = s.cfg := by
  simp [State.afterFrames]

theorem State.afterFrames_station (shift : Byte) (es : List Event) :
    (s.afterFrames r shift es).station r = { s.station r with rxShift := shift, rxCount := 0 } := by
  cases r <;> rfl

theorem State.afterFrames_afterFrames (shift shift' : Byte) (es es' : List Event) :
    (s.afterFrames r shift es).afterFrames r shift' es' = s.afterFrames r shift' (es ++ es') := by
  cases r <;> simp [State.afterFrames, State.setDeserializer, State.setStation, State.station]

theorem State.afterBytes_eq_afterFrames {shift : Byte} {wired : List Byte} {es : List Event}
    (h : (s.station r).rxBuf = []) :
    s.afterBytes st r shift wired [] es =
      s.afterFrames r shift (cleanWires st r (wired.flatMap bitsMsbFirst) ++ es) := by
  have hbuf : ((s.afterFrames r shift (cleanWires st r (wired.flatMap bitsMsbFirst) ++ es)).station r).rxBuf = [] := by
    rw [State.afterFrames_station]
    exact h
  rw [State.afterBytes, List.append_assoc, ← State.afterFrames, ← hbuf, State.setRxBuf_self]

variable (hr : ReceiverReady st r s)
include hr

theorem ReceiverReady.afterFrames (shift : Byte) (es : List Event) :
    ReceiverReady st r (s.afterFrames r shift es) where
  medium := by simpa [State.afterFrames] using hr.medium
  peer := by simpa [State.afterFrames, PeerIs] using hr.peer
  bound := by rw [State.afterFrames_station]; exact hr.bound
  rxBuf := by rw [State.afterFrames_station]; exact hr.rxBuf
  rxCount := by rw [State.afterFrames_station]

/-- With no frame sent, the state is as it was. -/
theorem ReceiverReady.afterFrames_nil : s.afterFrames r (s.station r).rxShift [] = s := by
  rw [State.afterFrames, List.append_nil, State.setDeserializer, ← hr.rxCount]
  exact State.setStation_station_self s r

/-- One frame over the perfect medium is its wires and its delivery. -/
theorem sendBytes_frame_delivers (hadm : admitted s.cfg = true) {c : List Byte} (hc : ChunkFits s.cfg c) :
    sendBytes st (frame s.cfg c) s = .done (s.afterFrames r 0x00 (chunkEvents s.cfg st r c)) := by
  have hroom := hc.room
  have hcomplete := complete_frame hadm c hc.noEscAtEnd
  have hpayload : ∀ t : State, t.cfg = s.cfg → processFrame r (frame s.cfg c) t = .done (t.emit (.deliver r c)) :=
    fun t ht => ht ▸ processFrame_frame r c t
  calc sendBytes st (frame s.cfg c) s
      = .done (s.afterBytes st r 0x00 (frame s.cfg c) [] [.deliver r c]) := by
        rw [frame_eq_append_stop] at hroom hcomplete hpayload ⊢
        rw [List.length_append, List.length_singleton] at hroom
        exact sendBytes_frame _ _ _ hr.medium hr.peer hr.rxCount hr.bound hr.rxBuf (noEarlyEnd_frame hadm c)
          (by simp) hcomplete hroom hpayload
    _ = .done (s.afterFrames r 0x00 (chunkEvents s.cfg st r c)) := by
        rw [State.afterBytes_eq_afterFrames hr.rxBuf, chunkEvents]

/-- Frame after frame: each leaves the receiver ready for the next. -/
theorem sendBytes_frames_deliver (hadm : admitted s.cfg = true) {cs : List (List Byte)}
    (hcs : ∀ c ∈ cs, ChunkFits s.cfg c) :
    ∃ shift, sendBytes st (cs.flatMap (frame s.cfg)) s =
      .done (s.afterFrames r shift (cs.flatMap (chunkEvents s.cfg st r))) := by
  induction cs generalizing s with
  | nil =>
    refine ⟨(s.station r).rxShift, ?_⟩
    rw [List.flatMap_nil, List.flatMap_nil, hr.afterFrames_nil]
    rfl
  | cons c cs ih =>
    rw [List.forall_mem_cons] at hcs
    obtain ⟨hc, hcs⟩ := hcs
    obtain ⟨shift, hrest⟩ := ih (hr.afterFrames 0x00 (chunkEvents s.cfg st r c)) (by simpa using hadm)
      (by simpa using hcs)
    rw [State.afterFrames_cfg, State.afterFrames_afterFrames] at hrest
    refine ⟨shift, ?_⟩
    rw [List.flatMap_cons, List.flatMap_cons, sendBytes_append, sendBytes_frame_delivers hr hadm hc,
      Run.done_andThen, hrest]

end

/-- In SIMPLE the one chunk is the buffer (42_framing_tx.md R90, R92). -/
theorem eq_of_mem_chunks_simple {cfg : Config} (hf : cfg.framing = .simple) {data c : List Byte}
    (h : c ∈ chunks cfg data) : c = data := by
  by_cases hd : data = []
  · subst hd
    rw [chunks_nil] at h
    split at h
    · exact List.mem_singleton.1 h
    · cases h
  · rw [chunks_simple hd hf] at h
    exact List.mem_singleton.1 h

/-- Settles O35: DL_SEND is its frames, and each frame finds the receiver ready. -/
theorem dlSendRoundTripsOverThePerfectMedium : Obligations.DlSendRoundTripsOverThePerfectMedium := by
  intro st r data s hs hadm hm hp hbst hbr hbuf hcount hroom hesc
  have hready : ReceiverReady st r s := ⟨hm, hp, hbr, hbuf, hcount⟩
  have hfits : ∀ c ∈ chunks s.cfg data, ChunkFits s.cfg c := fun c hc =>
    ⟨hroom c hc, fun hf => eq_of_mem_chunks_simple hf hc ▸ hesc hf⟩
  obtain ⟨shift, hsend⟩ := sendBytes_frames_deliver hready hadm hfits
  have hend := hready.afterFrames shift ((chunks s.cfg data).flatMap (chunkEvents s.cfg st r))
  refine ⟨_, by rw [exec_dlSend_bound hs hbst, exec_phySend_running hs, hsend]; rfl, ?_, ?_,
    chunks_flatten s.cfg data, hend.rxBuf, hend.rxCount, hend.bound, fun a ha => ?_, ?_⟩
  · simpa [State.afterFrames] using hs
  · rw [State.afterFrames, State.setDeserializer_trace]
    rfl
  · rw [State.afterFrames, State.setDeserializer_ne _ _ _ _ _ ha]
    cases a <;> rfl
  · simp [State.afterFrames]

/-! ## One frame, fed byte by byte -/

/-- A receiver that no beginning of q completes keeps q byte by byte. -/
theorem noEarlyEnd_of_take {cfg : Config} {pre q : List Byte}
    (h : ∀ n ≤ q.length, complete cfg (pre ++ q.take n) = false) : NoEarlyEnd cfg pre q := by
  induction q generalizing pre with
  | nil => trivial
  | cons x q ih =>
    refine ⟨h 1 (by simp), ih fun n hn => ?_⟩
    simpa using h (n + 1) (by simpa using hn)

/-- A frame that completes at its last byte only, from an empty buffer: its event, and nothing else. -/
theorem receiveBytes_frame {st : Station} {s : State} {q : List Byte} {x : Byte} {e : Event}
    (hbuf : (s.station st).rxBuf = []) (hq : NoEarlyEnd s.cfg [] q) (hroom : q.length < s.cfg.rxBufMax)
    (hc : complete s.cfg (q ++ [x]) = true)
    (hp : ∀ t : State, t.cfg = s.cfg → processFrame st (q ++ [x]) t = .done (t.emit e)) :
    forEach (receiveByte st) (q ++ [x]) s = .done (s.emit e) := by
  have hkept : forEach (receiveByte st) q s = .done (s.setRxBuf st q) := by
    rw [receiveBytes_accumulate (by rwa [hbuf]) (by rw [hbuf, List.length_nil]; omega), hbuf, List.nil_append]
  have hlast : receiveByte st x (s.setRxBuf st q) = .done (s.emit e) := by
    rw [receiveByte_emits (e := e) (by simpa using hroom.ne) (by simpa using hc) (by simpa using hp),
      State.setRxBuf_setRxBuf, ← hbuf, State.setRxBuf_self]
  rw [forEach_append, hkept, Run.done_andThen, forEach_cons, hlast]
  rfl

/-! ## One flipped bit of the payload (R110(a)) -/

/-- Byte i with its bit j flipped. -/
def flipBit (q : List Byte) (i j : Nat) : List Byte := q.set i (q.getD i 0x00 ^^^ (1#8 <<< j))

theorem flipBit_cons_succ (x : Byte) (q : List Byte) (i j : Nat) :
    flipBit (x :: q) (i + 1) j = x :: flipBit q i j := rfl

theorem flipBit_append {p : List Byte} {i : Nat} (h : i < p.length) (q : List Byte) (j : Nat) :
    flipBit (p ++ q) i j = flipBit p i j ++ q := by
  rw [flipBit, List.set_append_left _ _ h, List.getD_append _ _ _ _ h, flipBit]

@[simp] theorem flipBit_length (q : List Byte) (i j : Nat) : (flipBit q i j).length = q.length := List.length_set

theorem popcount_sum_flipBit {q : List Byte} {i j : Nat} (hi : i < q.length) (hj : j < 8) :
    ((flipBit q i j).map popcount).sum % 2 = ((q.map popcount).sum + 1) % 2 := by
  induction q generalizing i with
  | nil => cases hi
  | cons x q ih =>
    cases i with
    | zero =>
      have hx := popcount_flip x j hj
      simp only [flipBit, List.set_cons_zero, List.getD_cons_zero, List.map_cons, List.sum_cons]
      omega
    | succ i =>
      have hq := ih (Nat.lt_of_succ_lt_succ hi)
      simp only [flipBit_cons_succ, List.map_cons, List.sum_cons]
      omega

/-- The check byte tells a chunk from what a flipped bit of its stuffed form unstuffs to: with an ESC of even popcount
neither the walk nor the stuffing changes the parity. -/
theorem checkByte_ne_of_flipBit {cfg : Config} (he : popcount cfg.esc % 2 = 0) {c : List Byte} {i j : Nat}
    (hi : i < (stuff cfg c).length) (hj : j < 8) :
    checkByte c ≠ checkByte (unstuff cfg.esc (flipBit (stuff cfg c) i j)) := by
  have hstuffed := unstuff_parity he (stuff cfg c)
  rw [unstuff_stuff] at hstuffed
  have hflipped := unstuff_parity he (flipBit (stuff cfg c) i j)
  rw [popcount_sum_flipBit hi hj] at hflipped
  rw [Ne, checkByte_eq_iff]
  omega

theorem flipBit_frame {cfg : Config} (hf : cfg.framing = .parity) {c : List Byte} {i : Nat}
    (hi : i < (stuff cfg c).length) (j : Nat) :
    flipBit (frame cfg c) (i + 1) j = (cfg.start :: flipBit (stuff cfg c) i j ++ [checkByte c]) ++ [cfg.stop] := by
  rw [frame_parity hf, flipBit_cons_succ, flipBit_append hi]
  simp

/-- A PARITY frame that no beginning of it completes, with a check byte that is not its body's, is dropped (R106). -/
theorem receiveBytes_mismatch {st : Station} {s : State} {body : List Byte} {rc : Byte} (hf : s.cfg.framing = .parity)
    (hrc : rc ≠ s.cfg.esc) (hmismatch : rc ≠ checkByte (unstuff s.cfg.esc body)) (hbuf : (s.station st).rxBuf = [])
    (hroom : body.length + 3 ≤ s.cfg.rxBufMax)
    (hearly : ∀ n < body.length + 3, complete s.cfg
      (((s.cfg.start :: body ++ [rc]) ++ [s.cfg.stop]).take n) = false) :
    forEach (receiveByte st) ((s.cfg.start :: body ++ [rc]) ++ [s.cfg.stop]) s =
      .done (s.emit (.diag (.parityMismatch st (unstuff s.cfg.esc body) rc (checkByte (unstuff s.cfg.esc body))))) := by
  have hlen : (s.cfg.start :: body ++ [rc]).length = body.length + 2 := by simp
  have hquiet : NoEarlyEnd s.cfg [] (s.cfg.start :: body ++ [rc]) := noEarlyEnd_of_take fun n hn => by
    have hn' := hearly n (by omega)
    rwa [List.take_append_of_le_length hn] at hn'
  have hcomplete : complete s.cfg ((s.cfg.start :: body ++ [rc]) ++ [s.cfg.stop]) = true :=
    complete_append_stop (by simp) (by rw [List.getLast?_concat]; simpa using hrc)
  refine receiveBytes_frame hbuf hquiet (by omega) hcomplete fun t ht => ?_
  rw [← ht] at hf hmismatch ⊢
  rw [processFrame_parity hf, if_neg hmismatch]

/-- Settles O37: the bytes are START, the flipped body, the chunk's check byte and STOP, and the body's check byte is
another than the chunk's. -/
theorem aSingleFlippedPayloadBitIsDetected : Obligations.ASingleFlippedPayloadBitIsDetected := by
  intro st c q k j s hs hadm hf he hbuf hroom hk hkmax hj hq hearly
  obtain ⟨i, rfl⟩ := Nat.exists_eq_add_of_le' hk
  have hlen : (frame s.cfg c).length = (stuff s.cfg c).length + 3 := by rw [frame_parity hf]; simp
  have hi : i < (stuff s.cfg c).length := by omega
  have hflip : q = (s.cfg.start :: flipBit (stuff s.cfg c) i j ++ [checkByte c]) ++ [s.cfg.stop] :=
    hq.trans (flipBit_frame hf hi j)
  have hqlen : q.length = (flipBit (stuff s.cfg c) i j).length + 3 := by rw [hflip]; simp
  have hmismatch := checkByte_ne_of_flipBit he hi hj
  have hdropped := receiveBytes_mismatch hf (checkByte_ne_of_admitted hadm hf (by simp) c) hmismatch hbuf
    (by rw [flipBit_length]; omega) (by rwa [← hflip, ← hqlen])
  rw [← hflip] at hdropped
  exact ⟨_, _, _, hmismatch,
    execAll_map_of_done (exec_dlReceive_running st) (receiveByte_faultsOnce st) hs hdropped⟩

end Sys2Proof.Machine

/-! PROOFS. The physical layer (44_physical.md R115 to R117): PHY_SEND against the MED_SENDs of its bits, bytes over the
perfect medium, and the bits of PHY_RECEIVE. -/

namespace Sys2Proof.Machine

/-! ## Commands up to their first fault (45_network_system.md R127, 60_exceptions.md R132) -/

section
variable {α : Type} {cmd : α → Instr} {body : α → State → Run}

/-- A halted engine refuses them one and all, so the recorded fault stays. -/
theorem status_ne_zero_of_execAll_map
    (hhalted : ∀ x s, s.status ≠ 0x00 → exec (cmd x) s = .next (s.emit (.refused (.legal (cmd x))))) {xs : List α}
    {s t : State} (hs : s.status ≠ 0x00) (h : execAll (xs.map cmd) s = .next t) : t.status ≠ 0x00 := by
  induction xs generalizing s with
  | nil => cases h; exact hs
  | cons x xs ih =>
    simp only [List.map_cons, execAll, hhalted x s hs] at h
    exact ih (s := s.emit _) hs h

variable (hexec : ∀ x s, s.status = 0x00 → exec (cmd x) s = .next (body x s).final)
  (hhalted : ∀ x s, s.status ≠ 0x00 → exec (cmd x) s = .next (s.emit (.refused (.legal (cmd x)))))
  (hfault : ∀ x s, (body x s).FaultsOnce s)
include hexec hhalted hfault

/-- Commands that end without a fault are their rules run to the end: none of them can have faulted on the way. -/
theorem forEach_done_of_execAll_map {xs : List α} {s t : State} (hs : s.status = 0x00)
    (h : execAll (xs.map cmd) s = .next t) (ht : t.status = 0x00) : forEach body xs s = .done t := by
  induction xs generalizing s with
  | nil => cases h; rfl
  | cons x xs ih =>
    simp only [List.map_cons, execAll, hexec x s hs] at h
    have hx : (body x s).final.status = 0x00 :=
      by_contra fun hne => status_ne_zero_of_execAll_map hhalted hne h ht
    have hdone : body x s = .done (body x s).final := ((hfault x s).done_iff hs).2 hx
    rw [forEach_cons, hdone, Run.done_andThen]
    exact ih hx h

/-- A command that faults after others that did not aborts the rules there, whatever follows it. -/
theorem forEach_aborted_of_execAll_map {p q : List α} {x : α} {s t u : State} (hs : s.status = 0x00)
    (hp : execAll (p.map cmd) s = .next t) (ht : t.status = 0x00) (hx : exec (cmd x) t = .next u)
    (hu : u.status ≠ 0x00) : forEach body (p ++ x :: q) s = .aborted u := by
  have hfaults := hfault x t
  rw [hexec x t ht] at hx
  rw [forEach_append, forEach_done_of_execAll_map hexec hhalted hfault hs hp ht, Run.done_andThen, forEach_cons]
  cases hrule : body x t with
  | done v =>
    rw [hrule] at hx hfaults
    obtain ⟨hstatus, -⟩ := hfaults
    cases hx
    exact absurd (hstatus.trans ht) hu
  | aborted v =>
    rw [hrule] at hx
    cases hx
    rfl

end

/-! ## PHY_SEND (R115) -/

theorem exec_medSend_halted (st : Station) (b : Bit) (s : State) (hs : s.status ≠ 0x00) :
    exec (.medSend st b) s = .next (s.emit (.refused (.legal (.medSend st b)))) := perform_halted _ _ hs

/-- PHY_SEND's rule as one sequence of bits, byte after byte and MSB first. -/
theorem sendBytes_eq_sendBits (st : Station) (q : List Byte) (s : State) :
    sendBytes st q s = forEach (sendBit st) (q.flatMap bitsMsbFirst) s := forEach_forEach _ _ _ _

/-- Settles O20: the MED_SENDs of the bits and the bit transfers of the rule fault at the same bit, or neither does. -/
theorem phySendIsItsMedSendsUpToTheFirstFault : Obligations.PhySendIsItsMedSendsUpToTheFirstFault := by
  intro st data s hs
  have hexec : ∀ b u, u.status = 0x00 → exec (.medSend st b) u = .next (sendBit st b u).final :=
    fun b _ => exec_medSend_running b
  rw [exec_phySend_running hs, sendBytes_eq_sendBits]
  refine ⟨fun t h ht => ?_, fun p q b t u hbits hp ht hb hu => ?_⟩
  · rw [forEach_done_of_execAll_map hexec (exec_medSend_halted st) (sendBit_faultsOnce st) hs h ht]
    rfl
  · rw [hbits, forEach_aborted_of_execAll_map hexec (exec_medSend_halted st) (sendBit_faultsOnce st) hs hp ht hb hu]
    rfl

/-! ## Bytes over the perfect medium (R117) -/

theorem sendBytes_singleton (st : Station) (x : Byte) (s : State) : sendBytes st [x] s = sendByte st x s :=
  Run.andThen_done _

/-- Settles O21. -/
theorem aByteCrossesThePerfectMedium : Obligations.AByteCrossesThePerfectMedium := by
  intro st r x s hs hm hp hcount hbound
  rw [exec_phySend_running hs, sendBytes_singleton, sendByte_perfect x hm hp hcount hbound,
    exec_dlReceive_running r x _ (by simpa using hs)]

section
variable (s : State) (st r : Station) (shift : Byte) (wired buf : List Byte) (es : List Event)

@[simp] theorem State.afterBytes_burst : (s.afterBytes st r shift wired buf es).burst = s.burst := by
  simp [State.afterBytes]
@[simp] theorem State.afterBytes_bv : (s.afterBytes st r shift wired buf es).bv = s.bv := by simp [State.afterBytes]
theorem State.afterBytes_ne {a : Station} (h : a ≠ r) :
    (s.afterBytes st r shift wired buf es).station a = s.station a := by
  rw [State.afterBytes, State.setRxBuf_ne _ _ _ _ h, State.setDeserializer_ne _ _ _ _ _ h]
  cases a <;> rfl

end

/-- Settles O22: without a STOP no frame completes, so every byte is kept. -/
theorem phySendFillsThePeersBuffer : Obligations.PhySendFillsThePeersBuffer := by
  intro st r q s hs hm hp hcount hbound hstop hroom
  have hsent := sendBytes_accumulate q hm hp hcount hbound (noEarlyEnd_of_no_stop s.cfg hstop) hroom
  generalize (if q = [] then (s.station r).rxShift else 0x00) = shift at hsent
  refine ⟨_, by rw [exec_phySend_running hs, hsent, Run.final_done], ?_⟩
  rw [State.afterBytes_station]
  refine ⟨by simpa using hs, rfl, rfl, hbound, by simp, fun a ha => s.afterBytes_ne _ _ _ _ _ _ ha, ?_⟩
  simp

/-! ## PHY_RECEIVE (R116) -/

/-- Settles O17: a bit before the eighth is `exec_phyReceive_early`; the eighth meets a station without a client or one
with it. -/
theorem phyReceiveShiftsBitsIntoBytes : Obligations.PhyReceiveShiftsBitsIntoBytes := by
  intro st b s hs
  have hcleared : (s.setDeserializer st 0x00 0).status = 0x00 := by simpa using hs
  refine ⟨exec_phyReceive_early b hs, fun hcount hbound => ?_, fun hcount hbound => ?_⟩
  · rw [exec_phyReceive_running st b s hs, receiveBit_eighth b hcount, hbound, if_neg Bool.false_ne_true,
      raiseFault_first_final _ hcleared, State.setDeserializer_trace]
    rfl
  · rw [exec_phyReceive_running st b s hs, receiveBit_eighth b hcount, if_pos hbound,
      exec_dlReceive_running st _ _ hcleared]

end Sys2Proof.Machine

/-! PROOFS. The system commands and the halted gate, DL_BIND, the step of a legal command, and NET_SEND
(45_network_system.md R120, R122, R123, R125 to R127). -/

namespace Sys2Proof.Machine

/-! ## The halted gate (R127) and the system commands (R125, R126) -/

/-- RESET and RD_STATUS apart, a command is a rule behind the halted gate. -/
theorem exists_exec_eq_perform {i : Instr} (hreset : i ≠ .reset) (hstatus : i ≠ .rdStatus) :
    ∃ rule, exec i = perform (.legal i) rule := by
  cases i with
  | reset => exact absurd rfl hreset
  | rdStatus => exact absurd rfl hstatus
  | _ => exact ⟨_, rfl⟩

theorem exec_halted {i : Instr} (hreset : i ≠ .reset) (hstatus : i ≠ .rdStatus) {s : State} (hs : s.status ≠ 0x00) :
    exec i s = .next (s.emit (.refused (.legal i))) := by
  obtain ⟨rule, hrule⟩ := exists_exec_eq_perform hreset hstatus
  rw [hrule, perform_halted _ _ hs]

theorem exec_reset (s : State) : exec .reset s = .next (resetState s) := rfl

theorem exec_rdStatus (s : State) : exec .rdStatus s = .next (s.emit (.result (.status s.status))) := rfl

theorem resetState_setStatus (s : State) (v : Byte) : resetState (s.setStatus v) = resetState s := rfl

/-- Settles O2. -/
theorem rdStatusReturnsTheFaultCode : Obligations.RdStatusReturnsTheFaultCode := exec_rdStatus

/-- Settles O3: the gate refuses what is a rule behind it, and RESET overwrites the recorded fault. -/
theorem haltedEngineRefusesAllButResetAndRdStatus : Obligations.HaltedEngineRefusesAllButResetAndRdStatus := by
  intro s hs
  refine ⟨fun i hreset hstatus => exec_halted hreset hstatus hs, perform_halted _ _ hs, ?_, exec_rdStatus s⟩
  calc exec .reset s
      = .next (resetState s) := exec_reset s
    _ = .next (resetState (s.setStatus 0x00)) := by rw [resetState_setStatus]
    _ = exec .reset (s.setStatus 0x00) := (exec_reset _).symm

/-! ## DL_BIND (R122) -/

section
variable {st : Station} {s : State}

theorem bindStation_unbound (hb : (s.station st).bound = false) : bindStation st s = .done (s.setBound st true) := by
  simp [bindStation, hb]

theorem bindStation_bound (hb : (s.station st).bound = true) : bindStation st s = raiseFault .cfgClientAlready s := by
  simp [bindStation, hb]

theorem exec_dlBind_running (hs : s.status = 0x00) : exec (.dlBind st) s = .next (bindStation st s).final :=
  perform_running _ _ hs

end

/-- Settles O38. -/
theorem dlBindBindsOnce : Obligations.DlBindBindsOnce := by
  intro st s hs
  rw [exec_dlBind_running hs]
  refine ⟨fun hb => ?_, fun hb => ?_⟩
  · rw [bindStation_unbound hb]
    rfl
  · rw [bindStation_bound hb, raiseFault_first_final .cfgClientAlready hs]
    rfl

/-! ## A step that takes a legal command (R120) -/

theorem step_command {s : State} (ha : admitted s.cfg = true) {i : Instr} {rest : List Byte}
    (h : decode s.input = .command i rest) : step s = exec i (s.setInput rest) := by
  simp [step, takeCommand, ha, h]

/-- Settles O57. -/
theorem stepRunsTheDecodedInstruction : Obligations.StepRunsTheDecodedInstruction :=
  fun _ _ _ ha h => step_command ha h

/-! ## NET_SEND and its DL_SENDs (R123) -/

theorem exec_netSend_running {st : Station} {s : State} (hs : s.status = 0x00) :
    exec (.netSend st) s = .next (forEach (sendData st) s.cfg.testMessages s).final := perform_running _ _ hs

/-- Settles O40: the DL_SENDs of the messages and the calls of the rule fault at the same message, or neither does. -/
theorem netSendIsItsDlSendsUpToTheFirstFault : Obligations.NetSendIsItsDlSendsUpToTheFirstFault := by
  intro st s hs
  have hexec : ∀ m u, u.status = 0x00 → exec (.dlSend st m) u = .next (sendData st m u).final :=
    fun _ _ => exec_dlSend_running
  have hhalted : ∀ m u, u.status ≠ 0x00 → exec (.dlSend st m) u = .next (u.emit (.refused (.legal (.dlSend st m)))) :=
    fun m _ => exec_halted (i := .dlSend st m) nofun nofun
  rw [exec_netSend_running hs]
  refine ⟨fun t h ht => ?_, fun p q m t u hsplit hp ht hm hu => ?_⟩
  · rw [forEach_done_of_execAll_map hexec hhalted (sendData_faultsOnce st) hs h ht]
    rfl
  · rw [hsplit, forEach_aborted_of_execAll_map hexec hhalted (sendData_faultsOnce st) hs hp ht hm hu]
    rfl

/-! ## NET_SEND over the perfect medium (R123, 43_framing_rx.md R109) -/

theorem deliveries_append (es fs : List Event) : deliveries (es ++ fs) = deliveries es ++ deliveries fs :=
  List.filterMap_append

theorem deliveries_cleanWires (st r : Station) (bits : List Bit) : deliveries (cleanWires st r bits) = [] := by
  simp [deliveries, cleanWires]

/-- A chunk's events deliver that chunk and nothing else. -/
theorem deliveries_flatMap_chunkEvents (cfg : Config) (st r : Station) (cs : List (List Byte)) :
    deliveries (cs.flatMap (chunkEvents cfg st r)) = cs.map fun c => (r, c) := by
  induction cs with
  | nil => rfl
  | cons c cs ih =>
    rw [List.flatMap_cons, deliveries_append, ih, chunkEvents, deliveries_append, deliveries_cleanWires]
    rfl

section
variable {st r : Station} {s : State}

@[simp] theorem State.afterFrames_station_bound (shift : Byte) (es : List Event) (a : Station) :
    ((s.afterFrames r shift es).station a).bound = (s.station a).bound := by
  cases r <;> cases a <;> rfl

@[simp] theorem State.afterFrames_status (shift : Byte) (es : List Event) :
    (s.afterFrames r shift es).status = s.status := by
  simp [State.afterFrames]

@[simp] theorem State.afterFrames_trace (shift : Byte) (es : List Event) :
    (s.afterFrames r shift es).trace = s.trace ++ es := by
  simp [State.afterFrames]

/-- Buffer after buffer over the perfect medium: each leaves the sender bound and the receiver ready for the next. -/
theorem sendData_buffers_deliver (hr : ReceiverReady st r s) (hb : (s.station st).bound = true)
    (hadm : admitted s.cfg = true) {ms : List (List Byte)} (hms : ∀ m ∈ ms, ∀ c ∈ chunks s.cfg m, ChunkFits s.cfg c) :
    ∃ shift, forEach (sendData st) ms s =
      .done (s.afterFrames r shift ((ms.flatMap (chunks s.cfg)).flatMap (chunkEvents s.cfg st r))) := by
  induction ms generalizing s with
  | nil =>
    refine ⟨(s.station r).rxShift, ?_⟩
    rw [List.flatMap_nil, List.flatMap_nil, hr.afterFrames_nil, forEach_nil]
  | cons m ms ih =>
    rw [List.forall_mem_cons] at hms
    obtain ⟨hm, hms⟩ := hms
    obtain ⟨shift, hfirst⟩ := sendBytes_frames_deliver hr hadm hm
    obtain ⟨shift', hrest⟩ := ih (hr.afterFrames shift ((chunks s.cfg m).flatMap (chunkEvents s.cfg st r)))
      (by simpa using hb) (by simpa using hadm) (by simpa using hms)
    rw [State.afterFrames_cfg, State.afterFrames_afterFrames] at hrest
    refine ⟨shift', ?_⟩
    rw [forEach_cons, sendData_bound m hb, hfirst, Run.done_andThen, hrest, List.flatMap_cons, List.flatMap_append]

end

/-- Settles O41: NET_SEND is its buffers over a link that each of them leaves ready. -/
theorem netSendDeliversTheTestMessages : Obligations.NetSendDeliversTheTestMessages := by
  intro st r s hs hadm hparity hm hp hbst hbr hbuf hcount hroom
  have hready : ReceiverReady st r s := ⟨hm, hp, hbr, hbuf, hcount⟩
  have hfits : ∀ m ∈ s.cfg.testMessages, ∀ c ∈ chunks s.cfg m, ChunkFits s.cfg c := fun m hmem c hc =>
    ⟨hroom m hmem c hc, fun hsimple => nomatch hparity.symm.trans hsimple⟩
  obtain ⟨shift, hsend⟩ := sendData_buffers_deliver hready hbst hadm hfits
  refine ⟨_, by rw [exec_netSend_running hs, hsend, Run.final_done], ?_, ?_⟩
  · rw [State.afterFrames_status, hs]
  · rw [State.afterFrames_trace, deliveries_append, deliveries_flatMap_chunkEvents]

end Sys2Proof.Machine

/-! PROOFS. The faults (60_exceptions.md R130 to R135): the codes of the table, and how a command of a running engine
ends. -/

namespace Sys2Proof.Machine

/-! ## The codes (R130) -/

/-- Settles O6. -/
theorem faultCodesAreThoseOfTheTable : Obligations.FaultCodesAreThoseOfTheTable :=
  ⟨rfl, FaultCode.mem_all, FaultCode.code_injective⟩

/-! ## The faults of the bit vector unit (40_bitvector.md R71 to R73) -/

theorem raiseFault_self_faultsOnce (c : FaultCode) (s : State) : (raiseFault c s).FaultsOnce s :=
  raiseFault_faultsOnce c rfl [] (by simp) noFault_nil

theorem setBv_faultsOnce (s : State) (v : BitVectorUnit) : (Run.done (s.setBv v)).FaultsOnce s :=
  .done_of (State.setBv_status s v) [] (by simp) noFault_nil

theorem loadBytes_faultsOnce (data : List Byte) (b e : BitVec 32) (s : State) :
    (loadBytes data b e s).FaultsOnce s := by
  by_cases h : 0 ≤ b.toInt ∧ b.toInt ≤ e.toInt ∧ e.toInt ≤ data.length
  · rw [loadBytes_of_range s h]
    exact setBv_faultsOnce _ _
  · rw [loadBytes_of_not_range s h]
    exact raiseFault_self_faultsOnce _ _

theorem setBit_faultsOnce (index : BitVec 32) (v : Bit) (s : State) : (setBit index v s).FaultsOnce s := by
  rcases lt_or_ge index.toInt 0 with h | h
  · rw [setBit_of_neg s h]
    exact raiseFault_self_faultsOnce _ _
  · rw [setBit_of_nonneg s h]
    exact setBv_faultsOnce _ _

theorem getBit_faultsOnce (index : BitVec 32) (s : State) : (getBit index s).FaultsOnce s := by
  rcases lt_or_ge index.toInt 0 with h | h
  · rw [getBit_of_neg s h]
    exact raiseFault_self_faultsOnce _ _
  · rw [getBit_of_nonneg s h]
    exact returnValue_faultsOnce _ _

/-! ## A command of a running engine (R131, R132, R135) -/

/-- A running engine's next state is where the command's rule ended or was aborted. RESET needs the premise: it emits
nothing and leaves `STATUS` 0x00, which is what `STATUS` was. -/
theorem exec_running_faultsOnce (i : Instr) {s : State} (hs : s.status = 0x00) :
    ∃ r : Run, exec i s = .next r.final ∧ r.FaultsOnce s := by
  cases i with
  | reset => exact ⟨.done (resetState s), exec_reset s, .done_of hs.symm [] (by simp) noFault_nil⟩
  | rdStatus => exact ⟨returnValue (.status s.status) s, exec_rdStatus s, returnValue_faultsOnce _ s⟩
  | medRegister st => exact ⟨_, perform_running _ _ hs, registerEndpoint_faultsOnce st s⟩
  | medSend st b => exact ⟨_, perform_running _ _ hs, sendBit_faultsOnce st b s⟩
  | phySend st data => exact ⟨_, perform_running _ _ hs, sendBytes_faultsOnce st data s⟩
  | phyReceive st b => exact ⟨_, perform_running _ _ hs, receiveBit_faultsOnce st b s⟩
  | dlBind st => exact ⟨_, perform_running _ _ hs, bindStation_faultsOnce st s⟩
  | dlSend st data => exact ⟨_, perform_running _ _ hs, sendData_faultsOnce st data s⟩
  | dlReceive st x => exact ⟨_, perform_running _ _ hs, receiveByte_faultsOnce st x s⟩
  | bvNew => exact ⟨.done (s.setBv BitVectorUnit.reset), exec_bvNew_running hs, setBv_faultsOnce s _⟩
  | bvFromBytes data b e => exact ⟨_, perform_running _ _ hs, loadBytes_faultsOnce data b e s⟩
  | bvSet index v => exact ⟨_, perform_running _ _ hs, setBit_faultsOnce index v s⟩
  | bvGet index => exact ⟨_, perform_running _ _ hs, getBit_faultsOnce index s⟩
  | bvLen => exact ⟨_, perform_running _ _ hs, returnValue_faultsOnce _ s⟩
  | bvToBytes => exact ⟨_, perform_running _ _ hs, returnValue_faultsOnce _ s⟩
  | netSend st => exact ⟨_, perform_running _ _ hs, sendTestMessages_faultsOnce st s⟩

/-- Settles O4: the two ends of a rule, completion and its first fault, are the statement's two alternatives. -/
theorem aCommandRaisesAtMostOneFault : Obligations.ACommandRaisesAtMostOneFault := by
  intro i s hs
  obtain ⟨r, hexec, hfaults⟩ := exec_running_faultsOnce i hs
  cases r with
  | done t =>
    obtain ⟨hstatus, es, htrace, hno⟩ := hfaults
    exact ⟨t, es, hexec, hno, .inl ⟨hstatus.trans hs, htrace⟩⟩
  | aborted t =>
    obtain ⟨c, es, hstatus, htrace, hno⟩ := hfaults
    exact ⟨t, es, hexec, hno, .inr ⟨c, hstatus.trans (if_pos hs), htrace⟩⟩

end Sys2Proof.Machine

/-! PROOFS. Reset and power-on, the wiring of BOOT, and the undelivered SIMPLE payload (70_reset_and_hazards.md R150,
R152, R154). -/

namespace Sys2Proof.Machine

/-! ## Reset and power-on (R150, 45_network_system.md R125) -/

theorem bvRead_reset (i : Nat) : bvRead BitVectorUnit.reset i = false := rfl

theorem resetState_powerOn (cfg : Config) : resetState (State.powerOn cfg) = State.powerOn cfg := rfl

/-- Settles O1: power-on is a state that RESET leaves as it is, so what RESET answers tells its values too. -/
theorem resetAndPowerOnHoldTheResetValues : Obligations.ResetAndPowerOnHoldTheResetValues := by
  refine (and_iff_left_of_imp fun hreset => ?_).2 fun s => ?_
  · rintro cfg _ rfl
    obtain ⟨t, hexec, hvalues⟩ := hreset (State.powerOn cfg)
    rw [exec_reset, resetState_powerOn] at hexec
    cases hexec
    exact hvalues
  · exact ⟨resetState s, exec_reset s, resetState_slot0 s, resetState_slot1 s, resetState_burst s,
      resetState_station s, bvRead_reset, rfl, resetState_status s, resetState_cfg s, resetState_trace s⟩

/-! ## BOOT (R152, 30_encoding.md R63) -/

theorem execAll_cons_of_next {i : Instr} {s t : State} (h : exec i s = .next t) (is : List Instr) :
    execAll (i :: is) s = execAll is t := by
  rw [execAll, h]

section
variable {st : Station} {s : State} (hs : s.status = 0x00)
include hs

theorem exec_medRegister_of_slot0_empty (h0 : s.slot0 = none) :
    exec (.medRegister st) s = .next (s.setSlot0 (some st)) := by
  rw [exec_medRegister_running st hs, registerEndpoint_of_slot0_empty st h0, Run.final_done]

theorem exec_medRegister_of_slot1_empty (h0 : s.slot0 ≠ none) (h1 : s.slot1 = none) :
    exec (.medRegister st) s = .next (s.setSlot1 (some st)) := by
  rw [exec_medRegister_running st hs, registerEndpoint_of_slot1_empty st h0 h1, Run.final_done]

theorem exec_dlBind_unbound (hb : (s.station st).bound = false) :
    exec (.dlBind st) s = .next (s.setBound st true) := by
  rw [exec_dlBind_running hs, bindStation_unbound hb, Run.final_done]

end

/-- Both stations registered on the medium, station 0 first. -/
def State.registered (s : State) : State := ((resetState s).setSlot0 (some .st0)).setSlot1 (some .st1)

/-- The state that BOOT leaves: RESET, then both stations registered and bound. -/
def State.booted (s : State) : State := (s.registered.setBound .st0 true).setBound .st1 true

theorem State.registered_station (s : State) (st : Station) : s.registered.station st = StationState.reset := by
  simp [State.registered]

theorem State.booted_station (s : State) (st : Station) :
    s.booted.station st = { StationState.reset with bound := true } := by
  cases st <;> rfl

/-- Each command of BOOT after RESET finds an engine that runs, and the slot or the binding it fills still empty. -/
theorem execAll_boot (s : State) : execAll boot s = .next s.booted := by
  have hregister0 := exec_medRegister_of_slot0_empty (st := .st0) (resetState_status s) (resetState_slot0 s)
  have hregister1 : exec (.medRegister .st1) ((resetState s).setSlot0 (some .st0)) = .next s.registered :=
    exec_medRegister_of_slot1_empty (by simp) (by simp) (by simp)
  have hbind0 : exec (.dlBind .st0) s.registered = .next (s.registered.setBound .st0 true) :=
    exec_dlBind_unbound (by simp [State.registered]) (by simp [State.registered_station, StationState.reset])
  have hbind1 : exec (.dlBind .st1) (s.registered.setBound .st0 true) = .next s.booted :=
    exec_dlBind_unbound (by simp [State.registered])
      (by simp [State.setBound_ne, State.registered_station, StationState.reset])
  rw [boot, execAll_cons_of_next (exec_reset s), execAll_cons_of_next hregister0, execAll_cons_of_next hregister1,
    execAll_cons_of_next hbind0, execAll_singleton, hbind1]

/-- Settles O39: BOOT starts with RESET, so neither a recorded fault nor old wiring reaches its other commands. -/
theorem bootWiresBothStations : Obligations.BootWiresBothStations := by
  intro s
  refine ⟨s.booted, execAll_boot s, ?_, ?_, ?_, s.booted_station, ?_⟩
  all_goals simp [State.booted, State.registered, BitVectorUnit.reset]

/-! ## A SIMPLE payload that ends in ESC (R154, 43_framing_rx.md R101) -/

theorem frame_ne_nil (cfg : Config) (c : List Byte) : frame cfg c ≠ [] := by
  rw [frame_eq_append_stop]
  exact List.concat_ne_nil _ _

section
variable {cfg : Config} {c : List Byte} (hf : cfg.framing = .simple) (hc : c.getLast? = some cfg.esc)
include hf hc

/-- The STOP stands after the payload's own ESC, which the one-byte look-back takes for a stuffed STOP's. -/
theorem not_complete_frame : complete cfg (frame cfg c) = false := by
  rw [frame_eq_append_stop, checkField_simple hf, List.append_nil, Bool.eq_false_iff, Ne, complete_append_singleton]
  rintro ⟨-, -, hlast⟩
  rw [List.getLast?_cons, getLast?_stuff, hc] at hlast
  exact hlast rfl

/-- No byte of the whole frame completes it. -/
theorem noEarlyEnd_whole_frame (hadm : admitted cfg = true) : NoEarlyEnd cfg [] (frame cfg c) := by
  have hstop := not_complete_frame hf hc
  rw [frame_eq_append_stop] at hstop ⊢
  exact (NoEarlyEnd.append cfg).2 ⟨noEarlyEnd_frame hadm c, hstop, trivial⟩

end

/-- Settles O36: the payload is one chunk, and the receiver keeps every byte of its frame. -/
theorem aSimplePayloadEndingInEscIsNotDelivered : Obligations.ASimplePayloadEndingInEscIsNotDelivered := by
  intro st r c s hs hadm hf hm hp hbst hbr hbuf hcount hc hroom
  have hne : c ≠ [] := by
    rintro rfl
    cases hc
  have hkept := sendBytes_accumulate (frame s.cfg c) hm hp hcount hbr
    (by rw [hbuf]; exact noEarlyEnd_whole_frame hf hc hadm) (by rwa [hbuf, List.length_nil, Nat.zero_add])
  rw [if_neg (frame_ne_nil s.cfg c), hbuf, List.nil_append] at hkept
  have hsent : exec (.dlSend st c) s = .next (s.afterBytes st r 0x00 (frame s.cfg c) (frame s.cfg c) []) := by
    rw [exec_dlSend_bound hs hbst, chunks_simple hne hf, List.flatMap_singleton, exec_phySend_running hs, hkept,
      Run.final_done]
  refine ⟨_, hsent, ?_, ?_, ?_⟩
  · rw [State.afterBytes_status, hs]
  · rw [State.afterBytes_station]
  · rw [State.afterBytes_trace, List.append_nil]

end Sys2Proof.Machine
